-- ==== Sys2Proof/Word.lean ====
section
/-! DEFINITION. The widths of the CORE (spec R6, R8, R10): the machine word, a byte, the 64-bit
accumulator value, and the fields of an instruction word. -/

namespace Sys2Proof

/-- A register, the pc, an accumulator half or a bus word: an unsigned 32-bit value (R8, `XLEN`). -/
abbrev Word := BitVec 32

/-- The two accumulator halves as one value, `acc_hi ++ acc_lo` (R9, R42). -/
abbrev DWord := BitVec 64

/-- A byte, the unit in which the model lists the bus (log entry 1). -/
abbrev Byte := BitVec 8

/-- A 5-bit field that names a general register (R31). -/
abbrev RegIdx := BitVec 5

/-- A 5-bit unsigned number: a shift amount (R89) or an `ext`/`ins` position or size (R90). -/
abbrev Amount := BitVec 5

/-- The 16-bit immediate of the immediate form (R85). -/
abbrev Imm := BitVec 16

/-- The 26-bit address of the jump form (R84). -/
abbrev Target := BitVec 26

end Sys2Proof
end

