-- ==== Sys2Proof/Config.lean ====
section
/-! DEFINITION. What an implementation fixes (the parameters of spec R6) and the free values the spec
leaves open (`draw32()` of R9). The parameters' defaults stand with the decoder, in Decode.lean. -/

namespace Sys2Proof.Config

/-- The keys of `FUNCT_CODE`: the 37 register-form operations of R91. -/
inductive RegOp where
  | sll | rotr | srl | sra | sllv | rotrv | srlv | srav
  | movz | movn | mov
  | mul | div | divu | madd | maddu | msub | msubu
  | add | addu | sub | subu | and | or | xor | nor | not | negu | slt | sltu
  | seb | seh | wsbh | clo | clz | ext | ins
  deriving DecidableEq, Repr

/-- The keys of `IMM_OPCODE`: the 8 immediate-form operations of R92. -/
inductive ImmOp where
  | addi | addiu | slti | sltiu | andi | ori | xori | lui
  deriving DecidableEq, Repr

/-- The operations of the register-form table, in the order of their default codes (R91). -/
def RegOp.all : List RegOp :=
  [.sll, .rotr, .srl, .sra, .sllv, .rotrv, .srlv, .srav, .movz, .movn, .mov] ++
  [.mul, .div, .divu, .madd, .maddu, .msub, .msubu] ++
  [.add, .addu, .sub, .subu, .and, .or, .xor, .nor, .not, .negu, .slt, .sltu] ++
  [.seb, .seh, .wsbh, .clo, .clz, .ext, .ins]

/-- The operations of the immediate-form table, in the order of their default opcodes (R92). -/
def ImmOp.all : List ImmOp :=
  [.addi, .addiu, .slti, .sltiu, .andi, .ori, .xori, .lui]

/-- `ROTR_VARIANT` (R6, R196, R198): the true rotation, or the reference's off-by-one formula. -/
inductive RotrVariant where
  | rotate
  | reference
  deriving DecidableEq, Repr

/-- `EXTINS_FIELDS` (R6, R90): which of fields C and D holds `pos` and which holds `size` (log entry 8). -/
inductive ExtInsFields where
  | posInDSizeInC
  | posInCSizeInD
  deriving DecidableEq, Repr

/-- `LOADER_BYTE_ORDER` (R66, D19, U15): the byte order of a program file. The spec leaves it open and
it has no default and no list of values: the loader takes it as an argument, and that these two are all its
values is the model's (DESIGN CHOICE, log entry 16). -/
inductive ByteOrder where
  | littleEndian
  | bigEndian
  deriving DecidableEq, Repr

/-- A handler of a populated `JUMP_TABLE` (R252): from the 26-bit target and the pc of the instruction,
the pc it writes, or `none` where it writes none (log entry 7). -/
abbrev JumpHandler := Target → Word → Option Word

/-- The parameters of R6 whose values the source does not fix, or fixes by an unaudited literal. -/
structure Params where
  /-- `FUNCT_CODE`: the function code of each register-form operation (R91). -/
  functCode : RegOp → BitVec 6
  /-- `IMM_OPCODE`: the primary opcode of each immediate-form operation (R92). -/
  immOpcode : ImmOp → BitVec 6
  /-- `IMM_LSB`: the lowest bit of the 16-bit immediate (R85, conflict C1). -/
  immLsb : Nat
  /-- `EXTINS_FIELDS` (R90). -/
  extInsFields : ExtInsFields
  /-- `ROTR_VARIANT` (R196 to R198, conflict C2). -/
  rotrVariant : RotrVariant
  /-- `JUMP_TABLE`: the handler of a primary opcode 1 to 7, where there is one (R93, R252). -/
  jumpTable : BitVec 6 → Option JumpHandler
  /-- `MEM_WORDS`: how many words the bus holds (R60, R62). -/
  memWords : Nat

/-- `draw32()` (R9): the free value of the n-th draw of a run. It has no body, so nothing can be
proved of any one value: a claim about a draw holds for every value (log entry 3). -/
opaque draw32 : Nat → Word

end Sys2Proof.Config
end

