-- ==== Sys2Proof/Syntax.lean ====
section
/-! DEFINITION. The instructions, one constructor for each row of spec/opcode_table.json, in its order.
A constructor carries the fields its instruction uses and no other: the spec ignores the rest (R94). The
arguments stand in the order of the fields in the word, `a` = bits 25:21, `b` = bits 20:16, `c` = bits
15:11, `d` = bits 10:6 (R10, R83, R85); `b` is the destination wherever there is one (R86, R87). -/

namespace Sys2Proof

inductive Instr where
  -- arithmetic, R130 to R136
  | add (a b c : RegIdx)
  | addu (a b c : RegIdx)
  | addi (a b : RegIdx) (imm : Imm)
  | addiu (a b : RegIdx) (imm : Imm)
  | sub (a b c : RegIdx)
  | subu (a b c : RegIdx)
  | mul (a b c : RegIdx)
  -- multiply/divide-accumulate, R150 to R155
  | div (a c : RegIdx)
  | divu (a c : RegIdx)
  | madd (a c : RegIdx)
  | maddu (a c : RegIdx)
  | msub (a c : RegIdx)
  | msubu (a c : RegIdx)
  -- bitwise, R170 to R177
  | and (a b c : RegIdx)
  | andi (a b : RegIdx) (imm : Imm)
  | or (a b c : RegIdx)
  | ori (a b : RegIdx) (imm : Imm)
  | xor (a b c : RegIdx)
  | xori (a b : RegIdx) (imm : Imm)
  | nor (a b c : RegIdx)
  | not (a b : RegIdx)
  -- shifts and rotates, R190 to R197
  | sll (a b : RegIdx) (d : Amount)
  | srl (a b : RegIdx) (d : Amount)
  | sllv (a b c : RegIdx)
  | srlv (a b c : RegIdx)
  | sra (a b : RegIdx) (d : Amount)
  | srav (a b c : RegIdx)
  | rotr (a b : RegIdx) (d : Amount)
  | rotrv (a b c : RegIdx)
  -- move and compare, R210 to R217
  | mov (a b : RegIdx)
  | movn (a b c : RegIdx)
  | movz (a b c : RegIdx)
  | negu (a b : RegIdx)
  | slt (a b c : RegIdx)
  | sltu (a b c : RegIdx)
  | slti (a b : RegIdx) (imm : Imm)
  | sltiu (a b : RegIdx) (imm : Imm)
  -- bit-field and byte, R230 to R237
  | seb (a b : RegIdx)
  | seh (a b : RegIdx)
  | clo (a b : RegIdx)
  | clz (a b : RegIdx)
  | ext (a b : RegIdx) (pos size : Amount)
  | ins (a b : RegIdx) (pos size : Amount)
  | wsbh (a b : RegIdx)
  | lui (b : RegIdx) (imm : Imm)
  deriving DecidableEq, Repr

end Sys2Proof
end

