-- ==== Sys2Proof/WellFormed.lean ====
section
/-! DEFINITION. What a well-formed set of parameters is (spec R6, R44, R62, R85, R92, R97). Every
constructor of `Instr` holds fields of exactly the width the encoding gives them (R83, R85), and no field
value is reserved (R89, R90, R94), so every term of `Instr` is a well-formed instruction: the checks are
of the parameters, under which a word means one instruction. -/

namespace Sys2Proof.Config

/-- No two register-form operations share a function code: the table is keyed by it (R44, R97). -/
def Params.functCodesDistinct (p : Params) : Bool :=
  decide (RegOp.all.map p.functCode).Nodup

/-- No two immediate-form operations share a primary opcode (R44, R97). -/
def Params.immOpcodesDistinct (p : Params) : Bool :=
  decide (ImmOp.all.map p.immOpcode).Nodup

/-- Every immediate-form opcode is one of 8 to 43 (R82, R92). -/
def Params.immOpcodesInRange (p : Params) : Bool :=
  ImmOp.all.all fun o => decide (8 ≤ (p.immOpcode o).toNat) && decide ((p.immOpcode o).toNat ≤ 43)

/-- The 16-bit immediate lies inside the word (R85, `IMM_LSB`). -/
def Params.immInWord (p : Params) : Bool :=
  decide (p.immLsb + 16 ≤ 32)

/-- The bus holds a word at address 0, where the first instruction is fetched (R69), and its byte
addresses are 32-bit values (R65). -/
def Params.busAddressable (p : Params) : Bool :=
  decide (1 ≤ p.memWords) && decide (4 * p.memWords ≤ 2 ^ 32)

/-- All checks of the parameters together. -/
def Params.wellFormed (p : Params) : Bool :=
  p.functCodesDistinct && p.immOpcodesDistinct && p.immOpcodesInRange && p.immInWord && p.busAddressable

end Sys2Proof.Config
end

