-- ==== Sys2Proof/Decode.lean ====
section
/-! DEFINITION. Decoding a fetched word (spec R80 to R97), total on every word, and after it the encoder
(R98). The defaults of the opcode tables (R91 to R93) stand here. -/

namespace Sys2Proof

open Config

/-! ### The fields of a word (R10, R83 to R85) -/

/-- `op = word[31:26]`, the primary opcode (R81). -/
def opField (w : Word) : BitVec 6 := w.extractLsb' 26 6

/-- Field A, `word[25:21]` (R83). -/
def fieldA (w : Word) : BitVec 5 := w.extractLsb' 21 5

/-- Field B, `word[20:16]` (R83). -/
def fieldB (w : Word) : BitVec 5 := w.extractLsb' 16 5

/-- Field C, `word[15:11]` (R83). -/
def fieldC (w : Word) : BitVec 5 := w.extractLsb' 11 5

/-- Field D, `word[10:6]` (R83). -/
def fieldD (w : Word) : BitVec 5 := w.extractLsb' 6 5

/-- `func = word[5:0]`, the function code (R83). -/
def funcField (w : Word) : BitVec 6 := w.extractLsb' 0 6

/-- `target = word[25:0]`, the 26-bit address of the jump form (R84). -/
def targetField (w : Word) : Target := w.extractLsb' 0 26

/-- The 16-bit immediate, `word[IMM_LSB+15:IMM_LSB]` (R85, R97). -/
def immField (immLsb : Nat) (w : Word) : Imm := w.extractLsb' immLsb 16

/-! ### The opcode tables' defaults -/

/-- `FUNCT_CODE`, the register-form table (R91). -/
def defaultFunctCode : RegOp → BitVec 6
  | .sll => 0b000000
  | .rotr => 0b000001
  | .srl => 0b000010
  | .sra => 0b000011
  | .sllv => 0b000100
  | .rotrv => 0b000101
  | .srlv => 0b000110
  | .srav => 0b000111
  | .movz => 0b001010
  | .movn => 0b001011
  | .mov => 0b001110
  | .mul => 0b011000
  | .div => 0b011010
  | .divu => 0b011011
  | .madd => 0b011100
  | .maddu => 0b011101
  | .msub => 0b011110
  | .msubu => 0b011111
  | .add => 0b100000
  | .addu => 0b100001
  | .sub => 0b100010
  | .subu => 0b100011
  | .and => 0b100100
  | .or => 0b100101
  | .xor => 0b100110
  | .nor => 0b100111
  | .not => 0b101000
  | .negu => 0b101001
  | .slt => 0b101010
  | .sltu => 0b101011
  | .seb => 0b111000
  | .seh => 0b111001
  | .wsbh => 0b111010
  | .clo => 0b111011
  | .clz => 0b111100
  | .ext => 0b111101
  | .ins => 0b111110

/-- `IMM_OPCODE`, the immediate-form table (R92). -/
def defaultImmOpcode : ImmOp → BitVec 6
  | .addi => 0b001000
  | .addiu => 0b001001
  | .slti => 0b001010
  | .sltiu => 0b001011
  | .andi => 0b001100
  | .ori => 0b001101
  | .xori => 0b001110
  | .lui => 0b001111

/-- The parameters at the spec's defaults (R6): the tables above, the immediate at bits 15:0 (C1), `pos`
in D and `size` in C (R90), the true rotation (C2), an empty jump table (R93), 65535 words (R60). -/
def defaultParams : Params where
  functCode := defaultFunctCode
  immOpcode := defaultImmOpcode
  immLsb := 0
  extInsFields := .posInDSizeInC
  rotrVariant := .rotate
  jumpTable := fun _ => none
  memWords := 65535

/-! ### Operands that depend on a parameter -/

/-- The `pos` operand of `ext`/`ins` from fields C and D (R90). -/
def posField (x : ExtInsFields) (c d : BitVec 5) : Amount :=
  match x with
  | .posInDSizeInC => d
  | .posInCSizeInD => c

/-- The `size` operand of `ext`/`ins` from fields C and D (R90). -/
def sizeField (x : ExtInsFields) (c d : BitVec 5) : Amount :=
  match x with
  | .posInDSizeInC => c
  | .posInCSizeInD => d

/-! ### Decoding -/

/-- Why a word is invalid (R95); the kinds of R261. -/
inductive InvalidKind where
  /-- `op` in 44 to 63. -/
  | opcodeOutOfRange
  /-- `op` in 1 to 7 with no `JUMP_TABLE` entry. -/
  | noJumpHandler
  /-- `op` in 8 to 43 with no `IMM_OPCODE` entry. -/
  | noImmHandler
  /-- `op = 0` with a `func` not assigned in `FUNCT_CODE`. -/
  | noFunctHandler
  deriving DecidableEq, Repr

/-- The codes of the kinds (R261), as the 3-bit `invalid_kind` signal carries them (R49). -/
def InvalidKind.code : InvalidKind → BitVec 3
  | .opcodeOutOfRange => 1
  | .noJumpHandler => 2
  | .noImmHandler => 3
  | .noFunctHandler => 4

/-- What a word decodes to (R97). -/
inductive Decoded where
  /-- One of the 45 instructions. -/
  | instr (i : Instr)
  /-- A word whose primary opcode has a `JUMP_TABLE` handler (R114, R252); none by default. -/
  | jump (op : BitVec 6) (target : Target)
  /-- An invalid word, rejected by its kind (R95). -/
  | invalid (kind : InvalidKind)
  deriving DecidableEq, Repr

/-- The register-form handler `op` invoked with the four decoded fields (R86, R113); each operation takes
the fields it uses (R34, R94). -/
def regInstr (x : ExtInsFields) (op : RegOp) (a b c d : BitVec 5) : Instr :=
  match op with
  | .sll => .sll a b d
  | .rotr => .rotr a b d
  | .srl => .srl a b d
  | .sra => .sra a b d
  | .sllv => .sllv a b c
  | .rotrv => .rotrv a b c
  | .srlv => .srlv a b c
  | .srav => .srav a b c
  | .movz => .movz a b c
  | .movn => .movn a b c
  | .mov => .mov a b
  | .mul => .mul a b c
  | .div => .div a c
  | .divu => .divu a c
  | .madd => .madd a c
  | .maddu => .maddu a c
  | .msub => .msub a c
  | .msubu => .msubu a c
  | .add => .add a b c
  | .addu => .addu a b c
  | .sub => .sub a b c
  | .subu => .subu a b c
  | .and => .and a b c
  | .or => .or a b c
  | .xor => .xor a b c
  | .nor => .nor a b c
  | .not => .not a b
  | .negu => .negu a b
  | .slt => .slt a b c
  | .sltu => .sltu a b c
  | .seb => .seb a b
  | .seh => .seh a b
  | .wsbh => .wsbh a b
  | .clo => .clo a b
  | .clz => .clz a b
  | .ext => .ext a b (posField x c d) (sizeField x c d)
  | .ins => .ins a b (posField x c d) (sizeField x c d)

/-- The immediate-form handler `op` invoked with the two fields and the immediate (R87, R115). -/
def immInstr (op : ImmOp) (a b : BitVec 5) (imm : Imm) : Instr :=
  match op with
  | .addi => .addi a b imm
  | .addiu => .addiu a b imm
  | .slti => .slti a b imm
  | .sltiu => .sltiu a b imm
  | .andi => .andi a b imm
  | .ori => .ori a b imm
  | .xori => .xori a b imm
  | .lui => .lui b imm

/-- The register-form table's entry for a function code, `FUNCT_CODE` read backwards (R44, R97). -/
def regOpOf (p : Params) (func : BitVec 6) : Option RegOp :=
  RegOp.all.find? fun o => decide (p.functCode o = func)

/-- The immediate-form table's entry for a primary opcode, `IMM_OPCODE` read backwards (R44, R97). -/
def immOpOf (p : Params) (op : BitVec 6) : Option ImmOp :=
  ImmOp.all.find? fun o => decide (p.immOpcode o = op)

/-- The register form: look `func` up (R113). -/
def decodeReg (p : Params) (w : Word) : Decoded :=
  match regOpOf p (funcField w) with
  | some o => .instr (regInstr p.extInsFields o (fieldA w) (fieldB w) (fieldC w) (fieldD w))
  | none => .invalid .noFunctHandler

/-- The jump form: look `op` up (R114). -/
def decodeJump (p : Params) (w : Word) : Decoded :=
  match p.jumpTable (opField w) with
  | some _ => .jump (opField w) (targetField w)
  | none => .invalid .noJumpHandler

/-- The immediate form: look `op` up (R115). -/
def decodeImm (p : Params) (w : Word) : Decoded :=
  match immOpOf p (opField w) with
  | some o => .instr (immInstr o (fieldA w) (fieldB w) (immField p.immLsb w))
  | none => .invalid .noImmHandler

/-- Decoding under the parameters `p` (R82, R97): the primary opcode alone selects the format. -/
def decodeIn (p : Params) (w : Word) : Decoded :=
  if (opField w).toNat = 0 then decodeReg p w
  else if (opField w).toNat ≤ 7 then decodeJump p w
  else if (opField w).toNat ≤ 43 then decodeImm p w
  else .invalid .opcodeOutOfRange

/-- Decoding at the default parameters (R97). -/
def decode (w : Word) : Decoded := decodeIn defaultParams w

/-- The instruction the decoder reads from an instruction numbered as spec/opcode_table.json numbers its
bits: `nbits` bits `w`, every bit above them 0; `none` where the word is invalid. The CORE's instruction
is one 32-bit word (R80). -/
def decodeTableWord (nbits w : Nat) : Option Instr :=
  match decode (BitVec.ofNat 32 (w % 2 ^ nbits)) with
  | .instr i => some i
  | .jump _ _ => none
  | .invalid _ => none

/-! ### Encoding (R98) -/

/-- The register form: `(0 << 26) | (A << 21) | (B << 16) | (C << 11) | (D << 6) | func` (R98). -/
def wordR (func : BitVec 6) (a b c d : BitVec 5) : Word :=
  (0 : BitVec 6) ++ a ++ b ++ c ++ d ++ func

/-- The immediate form: `(op << 26) | (A << 21) | (B << 16) | (imm & 0xFFFF)` (R98). -/
def wordI (op : BitVec 6) (a b : BitVec 5) (imm : Imm) : Word :=
  op ++ a ++ b ++ imm

/-- The jump form: `(op << 26) | (target & 0x3FFFFFF)` (R98). -/
def wordJ (op : BitVec 6) (target : Target) : Word :=
  op ++ target

/-- Field C of an `ext`/`ins` word (R90). -/
def fieldCOf (x : ExtInsFields) (pos size : Amount) : BitVec 5 :=
  match x with
  | .posInDSizeInC => size
  | .posInCSizeInD => pos

/-- Field D of an `ext`/`ins` word (R90). -/
def fieldDOf (x : ExtInsFields) (pos size : Amount) : BitVec 5 :=
  match x with
  | .posInDSizeInC => pos
  | .posInCSizeInD => size

/-- The word of an instruction under the parameters `p` (R98), with 0 in every field the instruction
does not use. R98 places the immediate at bits 15:0, so this is the decoder's inverse where
`IMM_LSB = 0` (log entry 9). -/
def encodeIn (p : Params) : Instr → Word
  | .add a b c => wordR (p.functCode .add) a b c 0
  | .addu a b c => wordR (p.functCode .addu) a b c 0
  | .addi a b imm => wordI (p.immOpcode .addi) a b imm
  | .addiu a b imm => wordI (p.immOpcode .addiu) a b imm
  | .sub a b c => wordR (p.functCode .sub) a b c 0
  | .subu a b c => wordR (p.functCode .subu) a b c 0
  | .mul a b c => wordR (p.functCode .mul) a b c 0
  | .div a c => wordR (p.functCode .div) a 0 c 0
  | .divu a c => wordR (p.functCode .divu) a 0 c 0
  | .madd a c => wordR (p.functCode .madd) a 0 c 0
  | .maddu a c => wordR (p.functCode .maddu) a 0 c 0
  | .msub a c => wordR (p.functCode .msub) a 0 c 0
  | .msubu a c => wordR (p.functCode .msubu) a 0 c 0
  | .and a b c => wordR (p.functCode .and) a b c 0
  | .andi a b imm => wordI (p.immOpcode .andi) a b imm
  | .or a b c => wordR (p.functCode .or) a b c 0
  | .ori a b imm => wordI (p.immOpcode .ori) a b imm
  | .xor a b c => wordR (p.functCode .xor) a b c 0
  | .xori a b imm => wordI (p.immOpcode .xori) a b imm
  | .nor a b c => wordR (p.functCode .nor) a b c 0
  | .not a b => wordR (p.functCode .not) a b 0 0
  | .sll a b d => wordR (p.functCode .sll) a b 0 d
  | .srl a b d => wordR (p.functCode .srl) a b 0 d
  | .sllv a b c => wordR (p.functCode .sllv) a b c 0
  | .srlv a b c => wordR (p.functCode .srlv) a b c 0
  | .sra a b d => wordR (p.functCode .sra) a b 0 d
  | .srav a b c => wordR (p.functCode .srav) a b c 0
  | .rotr a b d => wordR (p.functCode .rotr) a b 0 d
  | .rotrv a b c => wordR (p.functCode .rotrv) a b c 0
  | .mov a b => wordR (p.functCode .mov) a b 0 0
  | .movn a b c => wordR (p.functCode .movn) a b c 0
  | .movz a b c => wordR (p.functCode .movz) a b c 0
  | .negu a b => wordR (p.functCode .negu) a b 0 0
  | .slt a b c => wordR (p.functCode .slt) a b c 0
  | .sltu a b c => wordR (p.functCode .sltu) a b c 0
  | .slti a b imm => wordI (p.immOpcode .slti) a b imm
  | .sltiu a b imm => wordI (p.immOpcode .sltiu) a b imm
  | .seb a b => wordR (p.functCode .seb) a b 0 0
  | .seh a b => wordR (p.functCode .seh) a b 0 0
  | .clo a b => wordR (p.functCode .clo) a b 0 0
  | .clz a b => wordR (p.functCode .clz) a b 0 0
  | .ext a b pos size => wordR (p.functCode .ext) a b (fieldCOf p.extInsFields pos size) (fieldDOf p.extInsFields pos size)
  | .ins a b pos size => wordR (p.functCode .ins) a b (fieldCOf p.extInsFields pos size) (fieldDOf p.extInsFields pos size)
  | .wsbh a b => wordR (p.functCode .wsbh) a b 0 0
  | .lui b imm => wordI (p.immOpcode .lui) 0 b imm

/-- The word of an instruction at the default parameters (R98). -/
def encode (i : Instr) : Word := encodeIn defaultParams i

end Sys2Proof
end

