-- ==== Sys2Proof/Machine/State.lean ====
section
/-! DEFINITION. The state of the CORE and of the bus it fetches from (spec R30, R60), its reset (R48,
R290), and the ways a step or a host call can stop. -/

namespace Sys2Proof.Machine

/-- An entry of the report log, `InvalidOpcode(kind, pc, word)` (R45, R261): the kind, the byte address of
the word, and the word fetched. -/
structure Report where
  kind : InvalidKind
  pc : Word
  word : Word
  deriving DecidableEq, Repr

/-- The bus contents: a (byte address, byte) pair for each byte that is not 0, addresses strictly rising.
An unlisted byte reads as 0, the value every bus word has at construction (R60, R63, R290). Word `k` of
the bus is the four bytes from address `4 * k` (log entry 1). -/
abbrev Memory := List Host.Cell

/-- The state `S` of R30, the bus contents of R60, and the model's own counter of free values. -/
structure State where
  /-- `x[0]` to `x[31]`, the general registers (R31). Register 0 is an ordinary register (R32). -/
  regs : Vector Word 32
  /-- The program counter, a byte address into the bus (R36). -/
  pc : Word
  /-- `acc_hi`, the accumulator's high half (R42). -/
  accHi : Word
  /-- `acc_lo`, the accumulator's low half (R42). -/
  accLo : Word
  /-- `pb`, the program break: the loaded program's size in words, read by nothing (R41). -/
  pb : Word
  /-- The report log, oldest first (R45). -/
  reports : List Report
  /-- The halt flag (R46). -/
  halted : Bool
  /-- The bus, external to the CORE (R60). -/
  mem : Memory
  /-- How many free values have been drawn: the model's own field, no state of the spec's (log entry 3). -/
  draws : Nat
  deriving DecidableEq, Repr

/-- Why the machine stops. -/
inductive Fault where
  /-- The fatal bus-range fault of a fetch, code 5 (R111, R262). Raised by the step whose `pc` lies beyond
  the bus; `left` is the state it leaves, with `halted` set and nothing else changed. Safe: the spec
  stops here too, and calls it a fault, never a successful end (R124). -/
  | busRange (left : State)
  /-- A step asked of a halted CORE: there is none (R110, U17). Raised by every step from a state with
  `halted` set; `left` is that state, unchanged. Safe: the spec has no step here. -/
  | stuck (left : State)
  /-- A bus access of the HOST at an address beyond the bus, which fails (R62 to R64). Raised by the host
  calls `hostWriteIn` and `hostReadIn`, never by a step. Safe: no access happens (log entry 10). -/
  | hostRange (addr : Word)
  deriving DecidableEq, Repr

/-- Why a request has no answer. -/
inductive Refusal where
  /-- An instruction without a meaning yet, by its mnemonic. Raised by no arm of `exec`: all 45
  instructions have their meaning. Safe. -/
  | notModelled (mnemonic : String)
  /-- `read_register(i)` with an index of 32 or more (R51, D25, U16). Raised by the host call
  `readRegister`, never by a step. Safe: the spec refuses it. -/
  | noSuchRegister (index : Nat)
  deriving DecidableEq, Repr

/-- `Engine::new(program_size_in_words)`: the state after reset (R48, R290). -/
def State.resetWith (programSize : Word) : State where
  regs := Vector.replicate 32 0
  pc := 0
  accHi := 0
  accLo := 0
  pb := programSize
  reports := []
  halted := false
  mem := []
  draws := 0

/-- The machine right after reset with nothing loaded, so that `program_size_in_words` is 0 (R293; DESIGN
CHOICE, log entry 2: R6 gives the argument no value). -/
def State.reset : State := State.resetWith 0

end Sys2Proof.Machine
end

