-- ==== Sys2Proof/Machine/Ops.lean ====
section
/-! DEFINITION. The named operations over the registers, the accumulator pair, the bus and the engine's
own state: what every meaning and the step are written with. -/

namespace Sys2Proof.Machine

/-! ### General registers -/

/-- `x[i]`: read general register `i` (R9, R31). Every index names a register, 0 among them (R32). -/
def State.readReg (s : State) (i : RegIdx) : Word := s.regs[i.toNat]'i.isLt

/-- `x[i] <- v`: write general register `i` (R9, R31). A write to register 0 is kept (R32). -/
def State.writeReg (s : State) (i : RegIdx) (v : Word) : State :=
  { s with regs := s.regs.set i.toNat v i.isLt }

/-! ### The accumulator pair -/

/-- `acc64`, the two halves as one value (R9, R42). -/
def State.acc64 (s : State) : DWord := s.accHi ++ s.accLo

/-- `acc64 <- w`: write both halves (R9). -/
def State.setAcc64 (s : State) (w : DWord) : State :=
  { s with accHi := w.extractLsb' 32 32, accLo := w.extractLsb' 0 32 }

/-! ### Free values -/

/-- The value `draw32()` gives when the next draw is made in this state (R9). -/
def State.drawn (s : State) : Word := Config.draw32 s.draws

/-- The state after one draw: only the model's own counter moves. -/
def State.afterDraw (s : State) : State := { s with draws := s.draws + 1 }

/-- `acc_hi <- draw32(); acc_lo <- draw32()`: two draws, independent of each other and of the old
accumulator (R150, R151, conflict C8). -/
def State.drawAcc (s : State) : State :=
  { s.afterDraw.afterDraw with accHi := s.drawn, accLo := s.afterDraw.drawn }

/-! ### The bus, byte by byte -/

/-- The byte at a byte address; an unlisted one reads as 0 (R63). -/
def Memory.readByte : Memory → Nat → Byte
  | [], _ => 0
  | (k, v) :: m, a => if k = a then v else Memory.readByte m a

/-- Write the byte at a byte address, keeping the canonical form: writing 0 removes the entry. -/
def Memory.writeByte : Memory → Nat → Byte → Memory
  | [], a, v => if v = 0 then [] else [(a, v)]
  | (k, w) :: m, a, v =>
    if a < k then (if v = 0 then (k, w) :: m else (a, v) :: (k, w) :: m)
    else if a = k then (if v = 0 then m else (a, v) :: m)
    else (k, w) :: Memory.writeByte m a v

/-- The canonical form: addresses strictly rising, no byte 0 listed. -/
def Memory.wf : Memory → Bool
  | [] => true
  | (k, v) :: m => decide (v ≠ 0) && m.all (fun c => decide (k < c.1)) && Memory.wf m

/-- Every listed byte lies inside a bus of `words` words (R60, R62). -/
def Memory.inBus (words : Nat) (m : Memory) : Bool :=
  m.all fun c => decide (c.1 < 4 * words)

/-! ### The bus, word by word -/

/-- The word of index `k` (R60): the byte at the lowest address is bits 7:0 (log entry 1). -/
def Memory.readWord (m : Memory) (k : Nat) : Word :=
  m.readByte (4 * k + 3) ++ m.readByte (4 * k + 2) ++ m.readByte (4 * k + 1) ++ m.readByte (4 * k)

/-- Set the word of index `k` (R60). -/
def Memory.writeWord (m : Memory) (k : Nat) (v : Word) : Memory :=
  (((m.writeByte (4 * k) (v.extractLsb' 0 8)).writeByte (4 * k + 1) (v.extractLsb' 8 8)).writeByte
    (4 * k + 2) (v.extractLsb' 16 8)).writeByte (4 * k + 3) (v.extractLsb' 24 8)

/-- A byte address is valid on a bus of `words` words (R62, U5): `0 .. 4 * MEM_WORDS - 1`. -/
def validAddr (words : Nat) (addr : Word) : Bool := decide (addr.toNat < 4 * words)

/-- `MemRead(addr, 4)` (R61, R63): the word of index `addr / 4`; `none` where it fails (R62). -/
def busRead (words : Nat) (m : Memory) (addr : Word) : Option Word :=
  if validAddr words addr then some (m.readWord (addr.toNat / 4)) else none

/-- `MemWrite(addr, 4, v)` (R61, R64): set the word of index `addr / 4`, touching no other; `none` where it
fails (R62). -/
def busWrite (words : Nat) (m : Memory) (addr v : Word) : Option Memory :=
  if validAddr words addr then some (m.writeWord (addr.toNat / 4) v) else none

/-! ### The engine -/

/-- `pc <- (pc + 4) mod 2^32`, the advance at the end of a step (R38, R117). -/
def State.advancePc (s : State) : State := { s with pc := s.pc + 4 }

/-- `report InvalidOpcode(kind, pc, word)`: append a report of the word fetched at `pc` (R9, R118, R261). -/
def State.report (s : State) (kind : InvalidKind) (word : Word) : State :=
  { s with reports := s.reports ++ [⟨kind, s.pc, word⟩] }

/-- The state the bus-range fault leaves: `halted` set, nothing else changed (R111, R262). -/
def State.haltedByBusRange (s : State) : State := { s with halted := true }

/-- The CORE takes no exception or trap (R260, R267): its one fatal condition stops it, with the state that
is left (R262; log entry 4). The faulting address is the `pc` of that state. -/
def raiseBusRange (s : State) : Host.Outcome State Fault Refusal :=
  .fault (.busRange s.haltedByBusRange)

/-- The code of the bus-range fault (R262, D17). -/
def busRangeCode : BitVec 3 := 5

end Sys2Proof.Machine
end

