-- ==== Sys2Proof/Machine/Operands.lean ====
section
/-! DEFINITION. The operand forms (spec R86 to R90) and the arithmetic on operands that several
instructions share. -/

namespace Sys2Proof.Machine

/-! ### Immediates (R88) -/

/-- `sext_32(imm)`: the immediate of `addi` and `slti` (R88). -/
def sextImm (imm : Imm) : Word := imm.signExtend 32

/-- `zext_32(imm)`: the immediate of `addiu`, `andi`, `ori`, `xori` and `sltiu` (R88). -/
def zextImm (imm : Imm) : Word := imm.setWidth 32

/-- `imm << 16`, low 16 bits zero: the operand of `lui` (R88). -/
def upperImm (imm : Imm) : Word := imm ++ (0 : BitVec 16)

/-! ### Shift amounts (R89) -/

/-- A fixed amount: field D as an unsigned number 0 to 31 (R89). -/
def fixedAmount (d : Amount) : Nat := d.toNat

/-- A variable amount: `x[C][4:0]`, for all four variable forms (R89, D32). -/
def regAmount (v : Word) : Nat := (v.extractLsb' 0 5).toNat

/-! ### Shifts and rotations (R9, R190 to R198) -/

/-- `v << n`: bits shifted past bit 31 are lost (R9). -/
def shiftLeft (v : Word) (n : Nat) : Word := v <<< n

/-- `v >>u n`: zeros enter at the top (R9). -/
def shiftRightLogical (v : Word) (n : Nat) : Word := v >>> n

/-- `v >>s n`: copies of bit 31 enter at the top (R9). -/
def shiftRightArith (v : Word) (n : Nat) : Word := v.sshiftRight n

/-- `rot(v, n)`, the true rotation; a rotation by 0 is special-cased (R196). -/
def rotateRight (v : Word) (n : Nat) : Word :=
  if n = 0 then v else shiftLeft v (32 - n) ||| shiftRightLogical v n

/-- `rot_ref(v, n)` for `n ≠ 1`, the reference's formula, with its special case at 0 (R198). -/
def rotateRef (v : Word) (n : Nat) : Word :=
  if n = 0 then v else shiftLeft v (33 - n) ||| shiftRightLogical v n

/-- Write `x[b]` with `v` rotated right by `n` under a `ROTR_VARIANT` (R196 to R198). Under `reference` the
rotation by 1 is a draw (R198, U2). -/
def State.writeRotated (variant : Config.RotrVariant) (s : State) (b : RegIdx) (v : Word) (n : Nat) : State :=
  match variant with
  | .rotate => s.writeReg b (rotateRight v n)
  | .reference => if n = 1 then s.afterDraw.writeReg b s.drawn else s.writeReg b (rotateRef v n)

/-! ### Products and quotients (R136, R149 to R151) -/

/-- The low 32 bits of the signed product (R136). -/
def mulLow (v w : Word) : Word := BitVec.ofInt 32 (v.toInt * w.toInt)

/-- The exact signed product `s32(v) * s32(w)` as a 64-bit value (R149). -/
def mulSigned (v w : Word) : DWord := BitVec.ofInt 64 (v.toInt * w.toInt)

/-- The exact unsigned product `v * w` as a 64-bit value (R149). -/
def mulUnsigned (v w : Word) : DWord := BitVec.ofNat 64 (v.toNat * w.toNat)

/-- `trunc(s32(v) / s32(w)) mod 2^64`: the signed quotient, rounded toward zero (R150). -/
def quotSigned (v w : Word) : DWord := BitVec.ofInt 64 (v.toInt.tdiv w.toInt)

/-- `floor(v / w)`: the unsigned quotient, whose high half is 0 (R151). -/
def quotUnsigned (v w : Word) : DWord := BitVec.ofNat 64 (v.toNat / w.toNat)

/-! ### Bit fields and bytes (R230 to R236) -/

/-- `popcount(v)`: how many of the 32 bits are 1 (R9, R232). -/
def popcount (v : Word) : Nat := (List.range 32).countP fun i => v.getLsbD i

/-- `2^size - 1`, a mask of the low `size` bits (R234, R235). -/
def lowMask (size : Amount) : Word := BitVec.ofNat 32 (2 ^ size.toNat - 1)

/-- The field of `ext`, left in place: `v & ((2^size - 1) << pos)` (R234, conflict C7). -/
def extractField (v : Word) (pos size : Amount) : Word := v &&& shiftLeft (lowMask size) pos.toNat

/-- The field `ins` inserts: `(v & (2^size - 1)) << pos` (R235). -/
def insertedField (v : Word) (pos size : Amount) : Word := shiftLeft (v &&& lowMask size) pos.toNat

/-- `v[23:16] ++ v[31:24] ++ v[7:0] ++ v[15:8]`: the bytes of each half-word swapped (R236). -/
def swapHalfBytes (v : Word) : Word :=
  v.extractLsb' 16 8 ++ v.extractLsb' 24 8 ++ v.extractLsb' 0 8 ++ v.extractLsb' 8 8

end Sys2Proof.Machine
end

