-- ==== Sys2Proof/Machine/Flags.lean ====
section
/-! DEFINITION. The CORE has no status flags or condition codes (spec R39): a comparison's outcome is a
word, 1 or 0, and a conditional move's condition is a register's value. -/

namespace Sys2Proof.Machine

/-- `cond ? 1 : 0`, what a comparison writes (R9, R214 to R217). -/
def condWord (c : Bool) : Word := if c then 1 else 0

/-- `s32(v) < s32(w)`, the signed comparison (R214, R216). -/
def lessSigned (v w : Word) : Bool := decide (v.toInt < w.toInt)

/-- `v < w`, the unsigned comparison (R215, R217). -/
def lessUnsigned (v w : Word) : Bool := decide (v.toNat < w.toNat)

/-- `v != 0`, the condition of `movn` (R211); `movz` takes its negation (R212). -/
def isNonzero (v : Word) : Bool := decide (v ≠ 0)

end Sys2Proof.Machine
end

