-- ==== Sys2Proof/Machine/Arithmetic.lean ====
section
/-! DEFINITION. Arithmetic (spec R129 to R136): every result is reduced mod 2^32, no overflow is detected, no flag
is set and no exception raised. -/

namespace Sys2Proof.Machine

/-- `add` (R130): `x[B] <- (x[A] + x[C]) mod 2^32`. -/
def execAdd (a b c : RegIdx) (s : State) : Host.Outcome State Fault Refusal :=
  .next (s.writeReg b (s.readReg a + s.readReg c))

/-- `addu` (R131): x[B] <- (x[A] + x[C]) mod 2^32, the same bits as `add`. -/
def execAddu (a b c : RegIdx) (s : State) : Host.Outcome State Fault Refusal :=
  .next (s.writeReg b (s.readReg a + s.readReg c))

/-- `addi` (R132): `x[B] <- (x[A] + sext_32(imm)) mod 2^32`. -/
def execAddi (a b : RegIdx) (imm : Imm) (s : State) : Host.Outcome State Fault Refusal :=
  .next (s.writeReg b (s.readReg a + sextImm imm))

/-- `addiu` (R133): x[B] <- (x[A] + zext_32(imm)) mod 2^32; the immediate is zero-extended. -/
def execAddiu (a b : RegIdx) (imm : Imm) (s : State) : Host.Outcome State Fault Refusal :=
  .next (s.writeReg b (s.readReg a + zextImm imm))

/-- `sub` (R134): `x[B] <- (x[A] - x[C]) mod 2^32`. -/
def execSub (a b c : RegIdx) (s : State) : Host.Outcome State Fault Refusal :=
  .next (s.writeReg b (s.readReg a - s.readReg c))

/-- `subu` (R135): x[B] <- (x[A] - x[C]) mod 2^32, the same bits as `sub`. -/
def execSubu (a b c : RegIdx) (s : State) : Host.Outcome State Fault Refusal :=
  .next (s.writeReg b (s.readReg a - s.readReg c))

/-- `mul` (R136): x[B] <- (s32(x[A]) * s32(x[C])) mod 2^32; the accumulator is not written. -/
def execMul (a b c : RegIdx) (s : State) : Host.Outcome State Fault Refusal :=
  .next (s.writeReg b (mulLow (s.readReg a) (s.readReg c)))

end Sys2Proof.Machine
end

