-- ==== Sys2Proof/Machine/BitField.lean ====
section
/-! DEFINITION. Bit-field and byte instructions (spec R230 to R237). Four of them do not do what their names say; the
behaviour is the rule (conflict C5). -/

namespace Sys2Proof.Machine

/-- `seb` (R230): x[B] <- x[A] & 0x000000FF: a mask, no sign extension. -/
def execSeb (a b : RegIdx) (s : State) : Host.Outcome State Fault Refusal :=
  .next (s.writeReg b (s.readReg a &&& 0x000000FF))

/-- `seh` (R231): x[B] <- x[A] & 0x0000FFFF: a mask, no sign extension. -/
def execSeh (a b : RegIdx) (s : State) : Host.Outcome State Fault Refusal :=
  .next (s.writeReg b (s.readReg a &&& 0x0000FFFF))

/-- `clo` (R232): x[B] <- popcount(x[A]): all the ones, not the leading run. -/
def execClo (a b : RegIdx) (s : State) : Host.Outcome State Fault Refusal :=
  .next (s.writeReg b (BitVec.ofNat 32 (popcount (s.readReg a))))

/-- `clz` (R233): x[B] <- 32 - popcount(x[A]): all the zeros, not the leading run. -/
def execClz (a b : RegIdx) (s : State) : Host.Outcome State Fault Refusal :=
  .next (s.writeReg b (BitVec.ofNat 32 (32 - popcount (s.readReg a))))

/-- `ext` (R234): x[B] <- x[A] & ((2^size - 1) << pos): the field left in place. -/
def execExt (a b : RegIdx) (pos size : Amount) (s : State) : Host.Outcome State Fault Refusal :=
  .next (s.writeReg b (extractField (s.readReg a) pos size))

/-- `ins` (R235): x[B] <- x[B] | ((x[A] & (2^size - 1)) << pos): an OR into the old destination. -/
def execIns (a b : RegIdx) (pos size : Amount) (s : State) : Host.Outcome State Fault Refusal :=
  .next (s.writeReg b (s.readReg b ||| insertedField (s.readReg a) pos size))

/-- `wsbh` (R236): `x[B] <- x[A][23:16] ++ x[A][31:24] ++ x[A][7:0] ++ x[A][15:8]`. -/
def execWsbh (a b : RegIdx) (s : State) : Host.Outcome State Fault Refusal :=
  .next (s.writeReg b (swapHalfBytes (s.readReg a)))

/-- `lui` (R237): `x[B] <- zext_32(imm) << 16`. -/
def execLui (b : RegIdx) (imm : Imm) (s : State) : Host.Outcome State Fault Refusal :=
  .next (s.writeReg b (upperImm imm))

end Sys2Proof.Machine
end

