-- ==== Sys2Proof/Machine/Bitwise.lean ====
section
/-! DEFINITION. Bitwise logical instructions (spec R170 to R177); immediates are zero-extended. -/

namespace Sys2Proof.Machine

/-- `and` (R170): `x[B] <- x[A] & x[C]`. -/
def execAnd (a b c : RegIdx) (s : State) : Host.Outcome State Fault Refusal :=
  .next (s.writeReg b (s.readReg a &&& s.readReg c))

/-- `andi` (R171): `x[B] <- x[A] & zext_32(imm)`. -/
def execAndi (a b : RegIdx) (imm : Imm) (s : State) : Host.Outcome State Fault Refusal :=
  .next (s.writeReg b (s.readReg a &&& zextImm imm))

/-- `or` (R172): `x[B] <- x[A] | x[C]`. -/
def execOr (a b c : RegIdx) (s : State) : Host.Outcome State Fault Refusal :=
  .next (s.writeReg b (s.readReg a ||| s.readReg c))

/-- `ori` (R173): `x[B] <- x[A] | zext_32(imm)`. -/
def execOri (a b : RegIdx) (imm : Imm) (s : State) : Host.Outcome State Fault Refusal :=
  .next (s.writeReg b (s.readReg a ||| zextImm imm))

/-- `xor` (R174): `x[B] <- x[A] ^ x[C]`. -/
def execXor (a b c : RegIdx) (s : State) : Host.Outcome State Fault Refusal :=
  .next (s.writeReg b (s.readReg a ^^^ s.readReg c))

/-- `xori` (R175): `x[B] <- x[A] ^ zext_32(imm)`. -/
def execXori (a b : RegIdx) (imm : Imm) (s : State) : Host.Outcome State Fault Refusal :=
  .next (s.writeReg b (s.readReg a ^^^ zextImm imm))

/-- `nor` (R176): `x[B] <- ~(x[A] | x[C])`. -/
def execNor (a b c : RegIdx) (s : State) : Host.Outcome State Fault Refusal :=
  .next (s.writeReg b (~~~(s.readReg a ||| s.readReg c)))

/-- `not` (R177): `x[B] <- ~x[A]`. -/
def execNot (a b : RegIdx) (s : State) : Host.Outcome State Fault Refusal :=
  .next (s.writeReg b (~~~(s.readReg a)))

end Sys2Proof.Machine
end

