-- ==== Sys2Proof/Machine/MoveCompare.lean ====
section
/-! DEFINITION. Moves and comparisons (spec R210 to R217): a comparison writes 1 or 0 to a general register (R39). -/

namespace Sys2Proof.Machine

/-- `mov` (R210): `x[B] <- x[A]`. -/
def execMov (a b : RegIdx) (s : State) : Host.Outcome State Fault Refusal :=
  .next (s.writeReg b (s.readReg a))

/-- `movn` (R211): if x[C] != 0: x[B] <- x[A]; otherwise no register is written. -/
def execMovn (a b c : RegIdx) (s : State) : Host.Outcome State Fault Refusal :=
  .next (if isNonzero (s.readReg c) then s.writeReg b (s.readReg a) else s)

/-- `movz` (R212): if x[C] == 0: x[B] <- x[A]; otherwise no register is written. -/
def execMovz (a b c : RegIdx) (s : State) : Host.Outcome State Fault Refusal :=
  .next (if isNonzero (s.readReg c) then s else s.writeReg b (s.readReg a))

/-- `negu` (R213): x[B] <- ~x[A]: the bitwise complement, not the arithmetic negation (conflict C5). -/
def execNegu (a b : RegIdx) (s : State) : Host.Outcome State Fault Refusal :=
  .next (s.writeReg b (~~~(s.readReg a)))

/-- `slt` (R214): `x[B] <- (s32(x[A]) < s32(x[C])) ? 1 : 0`. -/
def execSlt (a b c : RegIdx) (s : State) : Host.Outcome State Fault Refusal :=
  .next (s.writeReg b (condWord (lessSigned (s.readReg a) (s.readReg c))))

/-- `sltu` (R215): `x[B] <- (x[A] < x[C]) ? 1 : 0`. -/
def execSltu (a b c : RegIdx) (s : State) : Host.Outcome State Fault Refusal :=
  .next (s.writeReg b (condWord (lessUnsigned (s.readReg a) (s.readReg c))))

/-- `slti` (R216): `x[B] <- (s32(x[A]) < s32(sext_32(imm))) ? 1 : 0`. -/
def execSlti (a b : RegIdx) (imm : Imm) (s : State) : Host.Outcome State Fault Refusal :=
  .next (s.writeReg b (condWord (lessSigned (s.readReg a) (sextImm imm))))

/-- `sltiu` (R217): x[B] <- (x[A] < zext_32(imm)) ? 1 : 0; the immediate is zero-extended. -/
def execSltiu (a b : RegIdx) (imm : Imm) (s : State) : Host.Outcome State Fault Refusal :=
  .next (s.writeReg b (condWord (lessUnsigned (s.readReg a) (zextImm imm))))

end Sys2Proof.Machine
end

