-- ==== Sys2Proof/Machine/MulDivAcc.lean ====
section
/-! DEFINITION. Multiply/divide-accumulate (spec R149 to R155): the accumulator pair is written and no general
register. -/

namespace Sys2Proof.Machine

/-- `div` (R150): the 64-bit signed quotient, rounded toward zero; by zero, two draws and no condition (R263). -/
def execDiv (a c : RegIdx) (s : State) : Host.Outcome State Fault Refusal :=
  .next (if s.readReg c = 0 then s.drawAcc else s.setAcc64 (quotSigned (s.readReg a) (s.readReg c)))

/-- `divu` (R151): acc_hi <- 0; acc_lo <- floor(x[A] / x[C]); by zero, two draws and no condition (R263). -/
def execDivu (a c : RegIdx) (s : State) : Host.Outcome State Fault Refusal :=
  .next (if s.readReg c = 0 then s.drawAcc else s.setAcc64 (quotUnsigned (s.readReg a) (s.readReg c)))

/-- `madd` (R152): `acc64 <- (acc64 + s32(x[A]) * s32(x[C])) mod 2^64`. -/
def execMadd (a c : RegIdx) (s : State) : Host.Outcome State Fault Refusal :=
  .next (s.setAcc64 (s.acc64 + mulSigned (s.readReg a) (s.readReg c)))

/-- `maddu` (R153): `acc64 <- (acc64 + x[A] * x[C]) mod 2^64`. -/
def execMaddu (a c : RegIdx) (s : State) : Host.Outcome State Fault Refusal :=
  .next (s.setAcc64 (s.acc64 + mulUnsigned (s.readReg a) (s.readReg c)))

/-- `msub` (R154): `acc64 <- (acc64 - s32(x[A]) * s32(x[C])) mod 2^64`. -/
def execMsub (a c : RegIdx) (s : State) : Host.Outcome State Fault Refusal :=
  .next (s.setAcc64 (s.acc64 - mulSigned (s.readReg a) (s.readReg c)))

/-- `msubu` (R155): `acc64 <- (acc64 - x[A] * x[C]) mod 2^64`. -/
def execMsubu (a c : RegIdx) (s : State) : Host.Outcome State Fault Refusal :=
  .next (s.setAcc64 (s.acc64 - mulUnsigned (s.readReg a) (s.readReg c)))

end Sys2Proof.Machine
end

