-- ==== Sys2Proof/Machine/ShiftRotate.lean ====
section
/-! DEFINITION. Shifts and rotates (spec R190 to R198): the value is `x[A]`, the result goes to `x[B]`, the amount
is field D or `x[C][4:0]`. -/

namespace Sys2Proof.Machine

/-- `rotr` under a `ROTR_VARIANT` (R196, R198). -/
def rotrIn (variant : Config.RotrVariant) (a b : RegIdx) (d : Amount) (s : State) : Host.Outcome State Fault Refusal :=
  .next (s.writeRotated variant b (s.readReg a) (fixedAmount d))

/-- `rotrv` under a `ROTR_VARIANT` (R197, R198). -/
def rotrvIn (variant : Config.RotrVariant) (a b c : RegIdx) (s : State) : Host.Outcome State Fault Refusal :=
  .next (s.writeRotated variant b (s.readReg a) (regAmount (s.readReg c)))

/-- `sll` (R190): `x[B] <- x[A] << D`. -/
def execSll (a b : RegIdx) (d : Amount) (s : State) : Host.Outcome State Fault Refusal :=
  .next (s.writeReg b (shiftLeft (s.readReg a) (fixedAmount d)))

/-- `srl` (R191): `x[B] <- x[A] >>u D`. -/
def execSrl (a b : RegIdx) (d : Amount) (s : State) : Host.Outcome State Fault Refusal :=
  .next (s.writeReg b (shiftRightLogical (s.readReg a) (fixedAmount d)))

/-- `sllv` (R192): `x[B] <- x[A] << (x[C] & 31)`. -/
def execSllv (a b c : RegIdx) (s : State) : Host.Outcome State Fault Refusal :=
  .next (s.writeReg b (shiftLeft (s.readReg a) (regAmount (s.readReg c))))

/-- `srlv` (R193): `x[B] <- x[A] >>u (x[C] & 31)`. -/
def execSrlv (a b c : RegIdx) (s : State) : Host.Outcome State Fault Refusal :=
  .next (s.writeReg b (shiftRightLogical (s.readReg a) (regAmount (s.readReg c))))

/-- `sra` (R194): `x[B] <- x[A] >>s D`. -/
def execSra (a b : RegIdx) (d : Amount) (s : State) : Host.Outcome State Fault Refusal :=
  .next (s.writeReg b (shiftRightArith (s.readReg a) (fixedAmount d)))

/-- `srav` (R195): `x[B] <- x[A] >>s (x[C] & 31)`. -/
def execSrav (a b c : RegIdx) (s : State) : Host.Outcome State Fault Refusal :=
  .next (s.writeReg b (shiftRightArith (s.readReg a) (regAmount (s.readReg c))))

/-- `rotr` (R196): x[B] <- rot(x[A], D), under `ROTR_VARIANT` at its default. -/
def execRotr (a b : RegIdx) (d : Amount) (s : State) : Host.Outcome State Fault Refusal :=
  rotrIn defaultParams.rotrVariant a b d s

/-- `rotrv` (R197): x[B] <- rot(x[A], x[C] & 31), under `ROTR_VARIANT` at its default. -/
def execRotrv (a b c : RegIdx) (s : State) : Host.Outcome State Fault Refusal :=
  rotrvIn defaultParams.rotrVariant a b c s

end Sys2Proof.Machine
end

