-- ==== Sys2Proof/Machine/Dispatch.lean ====
section
/-! DEFINITION. The opcode dispatch (spec R44, R113, R115): one arm per instruction, each a call of the
instruction's meaning. A meaning writes the register file or the accumulator pair; the step around it
advances the pc (R117, R120). -/

namespace Sys2Proof.Machine

def exec (i : Instr) (s : State) : Host.Outcome State Fault Refusal :=
  match i with
  | .add a b c => Sys2Proof.Machine.execAdd a b c s
  | .addu a b c => Sys2Proof.Machine.execAddu a b c s
  | .addi a b imm => Sys2Proof.Machine.execAddi a b imm s
  | .addiu a b imm => Sys2Proof.Machine.execAddiu a b imm s
  | .sub a b c => Sys2Proof.Machine.execSub a b c s
  | .subu a b c => Sys2Proof.Machine.execSubu a b c s
  | .mul a b c => Sys2Proof.Machine.execMul a b c s
  | .div a c => Sys2Proof.Machine.execDiv a c s
  | .divu a c => Sys2Proof.Machine.execDivu a c s
  | .madd a c => Sys2Proof.Machine.execMadd a c s
  | .maddu a c => Sys2Proof.Machine.execMaddu a c s
  | .msub a c => Sys2Proof.Machine.execMsub a c s
  | .msubu a c => Sys2Proof.Machine.execMsubu a c s
  | .and a b c => Sys2Proof.Machine.execAnd a b c s
  | .andi a b imm => Sys2Proof.Machine.execAndi a b imm s
  | .or a b c => Sys2Proof.Machine.execOr a b c s
  | .ori a b imm => Sys2Proof.Machine.execOri a b imm s
  | .xor a b c => Sys2Proof.Machine.execXor a b c s
  | .xori a b imm => Sys2Proof.Machine.execXori a b imm s
  | .nor a b c => Sys2Proof.Machine.execNor a b c s
  | .not a b => Sys2Proof.Machine.execNot a b s
  | .sll a b d => Sys2Proof.Machine.execSll a b d s
  | .srl a b d => Sys2Proof.Machine.execSrl a b d s
  | .sllv a b c => Sys2Proof.Machine.execSllv a b c s
  | .srlv a b c => Sys2Proof.Machine.execSrlv a b c s
  | .sra a b d => Sys2Proof.Machine.execSra a b d s
  | .srav a b c => Sys2Proof.Machine.execSrav a b c s
  | .rotr a b d => Sys2Proof.Machine.execRotr a b d s
  | .rotrv a b c => Sys2Proof.Machine.execRotrv a b c s
  | .mov a b => Sys2Proof.Machine.execMov a b s
  | .movn a b c => Sys2Proof.Machine.execMovn a b c s
  | .movz a b c => Sys2Proof.Machine.execMovz a b c s
  | .negu a b => Sys2Proof.Machine.execNegu a b s
  | .slt a b c => Sys2Proof.Machine.execSlt a b c s
  | .sltu a b c => Sys2Proof.Machine.execSltu a b c s
  | .slti a b imm => Sys2Proof.Machine.execSlti a b imm s
  | .sltiu a b imm => Sys2Proof.Machine.execSltiu a b imm s
  | .seb a b => Sys2Proof.Machine.execSeb a b s
  | .seh a b => Sys2Proof.Machine.execSeh a b s
  | .clo a b => Sys2Proof.Machine.execClo a b s
  | .clz a b => Sys2Proof.Machine.execClz a b s
  | .ext a b pos size => Sys2Proof.Machine.execExt a b pos size s
  | .ins a b pos size => Sys2Proof.Machine.execIns a b pos size s
  | .wsbh a b => Sys2Proof.Machine.execWsbh a b s
  | .lui b imm => Sys2Proof.Machine.execLui b imm s

end Sys2Proof.Machine
end

