-- ==== Sys2Proof/Machine/Engine.lean ====
section
/-! DEFINITION. One step of the engine (spec R110 to R122) around a dispatch: fetch, decode, execute,
advance. Step.lean gives it `exec` and the default parameters. -/

namespace Sys2Proof.Machine

/-- Run the `JUMP_TABLE` handler of a primary opcode: it may write the pc and writes nothing else (R252;
log entry 7). -/
def runJump (p : Config.Params) (op : BitVec 6) (target : Target) (s : State) : State :=
  match p.jumpTable op with
  | none => s
  | some handler =>
    match handler target s.pc with
    | none => s
    | some t => { s with pc := t }

/-- The advance after a handler (R117): unconditional, after any pc the handler wrote; an outcome that is
no next state is passed on. -/
def advance (o : Host.Outcome State Fault Refusal) : Host.Outcome State Fault Refusal :=
  match o with
  | .next t => .next t.advancePc
  | .fault r => .fault r
  | .refused r => .refused r

/-- What the engine does with the word it fetched, before the advance (R112 to R116): run the instruction,
run the jump handler, or report the invalid word and go on (R118). -/
def dispatchWord (p : Config.Params) (run : Instr → State → Host.Outcome State Fault Refusal)
    (w : Word) (s : State) : Host.Outcome State Fault Refusal :=
  match decodeIn p w with
  | .instr i => run i s
  | .jump op target => .next (runJump p op target s)
  | .invalid kind => .next (s.report kind w)

/-- One `step()` (R122) under the parameters `p`, with `run` as the instructions' meanings. -/
def cycle (p : Config.Params) (run : Instr → State → Host.Outcome State Fault Refusal)
    (s : State) : Host.Outcome State Fault Refusal :=
  if s.halted then .fault (.stuck s)
  else
    match busRead p.memWords s.mem s.pc with
    | none => raiseBusRange s
    | some w => advance (dispatchWord p run w s)

/-- Place a word where the next step fetches: a host write at the pc (R64). Beyond the bus nothing can be
placed, and nothing changes. -/
def State.placeWord (p : Config.Params) (s : State) (w : Word) : State :=
  match busWrite p.memWords s.mem s.pc w with
  | some m => { s with mem := m }
  | none => s

end Sys2Proof.Machine
end

