-- ==== Sys2Proof/Machine/Step.lean ====
section
/-! DEFINITION. `Engine::step()` (spec R110 to R122) at the default parameters, and the placing of one
instruction where the next step fetches it. -/

namespace Sys2Proof.Machine

/-- One step of the CORE (R122). -/
def step (s : State) : Host.Outcome State Fault Refusal :=
  cycle defaultParams exec s

/-- `s` with the instruction whose bits are `w`, numbered as spec/opcode_table.json numbers them, stored at
the pc, as the host's loader stores it (R64, R293; log entry 11). -/
def State.withFetchWord (s : State) (nbits w : Nat) : State :=
  s.placeWord defaultParams (BitVec.ofNat 32 (w % 2 ^ nbits))

end Sys2Proof.Machine
end

