-- ==== Sys2Proof/Machine/Variants.lean ====
section
/-! DEFINITION. The machine under any parameters (spec R6: a model takes them as an argument so that a claim
can name them). `exec` and `step` are these at `defaultParams`: `Sys2Proof.Laws.stepIn_defaultParams`. -/

namespace Sys2Proof.Machine

/-- The meaning of an instruction under the parameters `p`. Of the parameters only `ROTR_VARIANT` reaches a
meaning (R196 to R198); the others act on decoding (R90 to R93) and on the fetch (R62). -/
def execIn (p : Config.Params) (i : Instr) (s : State) : Host.Outcome State Fault Refusal :=
  match i with
  | .rotr a b d => rotrIn p.rotrVariant a b d s
  | .rotrv a b c => rotrvIn p.rotrVariant a b c s
  | other => exec other s

/-- One step under the parameters `p` (R122). -/
def stepIn (p : Config.Params) (s : State) : Host.Outcome State Fault Refusal :=
  cycle p (execIn p) s

end Sys2Proof.Machine
end

