-- ==== Sys2Proof/Machine/Interface.lean ====
section
/-! DEFINITION. What the outside does with the CORE and sees of it: the host's calls (spec R125), the
loader's effect on the bus (R293) and the block's signals (R49). What depends on a parameter of R6 takes the
parameters as an argument, under a name that ends in `In`; the name without it is that operation at
`defaultParams`. -/

namespace Sys2Proof.Machine

/-! ### The host's calls (R125) -/

/-- `Engine::new(program_size_in_words)` (R290): at any time, discarding the old state, `halted` and the bus
contents included. -/
def hostNew (programSize : Word) (_old : State) : State := State.resetWith programSize

/-- `Bus::write(address, value)` under the parameters `p` (R64, R74, R125): the next fetch sees it; beyond the
bus it fails (R62). -/
def hostWriteIn (p : Config.Params) (addr v : Word) (s : State) : Host.Outcome State Fault Refusal :=
  match busWrite p.memWords s.mem addr v with
  | some m => .next { s with mem := m }
  | none => .fault (.hostRange addr)

/-- `Bus::write(address, value)` at the default parameters. -/
def hostWrite (addr v : Word) (s : State) : Host.Outcome State Fault Refusal := hostWriteIn defaultParams addr v s

/-- `Bus::read(address)` under the parameters `p` (R63): the word, or the failure of a read beyond the bus
(R62). -/
def hostReadIn (p : Config.Params) (addr : Word) (s : State) : Except Fault Word :=
  match busRead p.memWords s.mem addr with
  | some v => .ok v
  | none => .error (.hostRange addr)

/-- `Bus::read(address)` at the default parameters. -/
def hostRead (addr : Word) (s : State) : Except Fault Word := hostReadIn defaultParams addr s

/-- `Engine::read_register(i)` (R49, R51, R274): `x[i]`, and a refusal for an index of 32 or more. -/
def readRegister (i : Nat) (s : State) : Except Refusal Word :=
  if h : i < 32 then .ok (s.regs[i]'h) else .error (.noSuchRegister i)

/-! ### Loading a program (R66, R293) -/

/-- One program word from four bytes of a program file, under `LOADER_BYTE_ORDER` (R66, D19). -/
def wordOfBytes (order : Config.ByteOrder) (b0 b1 b2 b3 : Byte) : Word :=
  match order with
  | .littleEndian => b3 ++ b2 ++ b1 ++ b0
  | .bigEndian => b0 ++ b1 ++ b2 ++ b3

/-- The program words of a program file; `none` where its length is no whole number of words. -/
def wordsOfBytes (order : Config.ByteOrder) : List Byte → Option (List Word)
  | [] => some []
  | b0 :: b1 :: b2 :: b3 :: rest => (wordsOfBytes order rest).map (wordOfBytes order b0 b1 b2 b3 :: ·)
  | _ => none

/-- Write program words at consecutive word addresses from `addr` on, under the parameters `p` (R293). A program
too long for the bus stops at the first write beyond it (DESIGN CHOICE, log entry 16); where the bus fills all
32-bit addresses none lies beyond it, and the address wraps to 0 (DESIGN CHOICE, log entry 19). -/
def loadFromIn (p : Config.Params) (addr : Word) : List Word → State → Host.Outcome State Fault Refusal
  | [], s => .next s
  | w :: ws, s =>
    match hostWriteIn p addr w s with
    | .next t => loadFromIn p (addr + 4) ws t
    | .fault r => .fault r
    | .refused r => .refused r

/-- Write program words at the default parameters. -/
def loadFrom (addr : Word) (ws : List Word) (s : State) : Host.Outcome State Fault Refusal :=
  loadFromIn defaultParams addr ws s

/-- Boot under the parameters `p` (R293): reset with the program's size in words, then word `i` at byte
address `4 * i`. -/
def bootIn (p : Config.Params) (program : List Word) : Host.Outcome State Fault Refusal :=
  loadFromIn p 0 program (State.resetWith (BitVec.ofNat 32 program.length))

/-- Boot at the default parameters. -/
def boot (program : List Word) : Host.Outcome State Fault Refusal := bootIn defaultParams program

/-! ### The block's signals (R49) -/

/-- `dbg_data`: `x[dbg_idx]` in the current state; the 5-bit index names a register always (R49, R51). -/
def dbgData (dbgIdx : RegIdx) (s : State) : Word := s.readReg dbgIdx

/-- `ibus_addr`: the fetch address (R49). -/
def ibusAddr (s : State) : Word := s.pc

/-- `ibus_data` under the parameters `p`: the word the bus returns for `ibus_addr`, where it returns one
(R49). -/
def ibusDataIn (p : Config.Params) (s : State) : Option Word := busRead p.memWords s.mem (ibusAddr s)

/-- `ibus_data` at the default parameters. -/
def ibusData (s : State) : Option Word := ibusDataIn defaultParams s

/-- `ibus_range_err` under the parameters `p`: `ibus_addr` is outside the store (R49, R62). -/
def ibusRangeErrIn (p : Config.Params) (s : State) : Bool := !(validAddr p.memWords (ibusAddr s))

/-- `ibus_range_err` at the default parameters. -/
def ibusRangeErr (s : State) : Bool := ibusRangeErrIn defaultParams s

/-- `fatal`: equals `halted` (R49). -/
def fatal (s : State) : Bool := s.halted

/-- `invalid_kind`, `invalid_pc` and `invalid_word` of the step from `before` to `after` (R49, R261): the
report it appended, or `none` where it appended none and `invalid_op` is low (log entry 12). -/
def invalidReport (before after : State) : Option Report :=
  after.reports[before.reports.length]?

/-- `invalid_op`: high for a step that appended an invalid-opcode report (R49). -/
def invalidOp (before after : State) : Bool := (invalidReport before after).isSome

/-- A rising edge of `clk` under the parameters `p` (R49): `rst` applies the reset values and samples
`rst_program_size` (R290); otherwise the edge executes one step. -/
def clockEdgeIn (p : Config.Params) (rst : Bool) (rstProgramSize : Word) (s : State) :
    Host.Outcome State Fault Refusal :=
  if rst then .next (hostNew rstProgramSize s) else stepIn p s

/-- A rising edge of `clk` at the default parameters. -/
def clockEdge (rst : Bool) (rstProgramSize : Word) (s : State) : Host.Outcome State Fault Refusal :=
  clockEdgeIn defaultParams rst rstProgramSize s

end Sys2Proof.Machine
end

