-- ==== Sys2Proof/Safety.lean ====
section
/-! DEFINITION. The terms the claims are stated in: the spec's notation written independently of the
machine, what an instruction leaves unchanged, and the invariant of a running CORE. -/

namespace Sys2Proof.Safety

open Sys2Proof.Machine

/-! ### Notation (R8, R83, R85) -/

/-- `s32(v) = v` if `v < 2^31` else `v - 2^32` (R8). -/
def s32 (v : Word) : Int := if v.toNat < 2 ^ 31 then v.toNat else v.toNat - 2 ^ 32

/-- The number `word[31:26] = 0`, A, B, C, D, func make (R83). -/
def regWord (func : Nat) (a b c d : BitVec 5) : Word :=
  BitVec.ofNat 32 (a.toNat * 2 ^ 21 + b.toNat * 2 ^ 16 + c.toNat * 2 ^ 11 + d.toNat * 2 ^ 6 + func)

/-- The number op, A, B, imm make (R85). -/
def immWord (op : Nat) (a b : BitVec 5) (imm : BitVec 16) : Word :=
  BitVec.ofNat 32 (op * 2 ^ 26 + a.toNat * 2 ^ 21 + b.toNat * 2 ^ 16 + imm.toNat)

/-- The number op and a 26-bit target make (R84). -/
def jumpWord (op : Nat) (target : BitVec 26) : Word :=
  BitVec.ofNat 32 (op * 2 ^ 26 + target.toNat)

/-! ### Frames -/

/-- The part of the state no instruction writes: pc (the engine advances it, R117, R120), program break,
reports, halt flag, and every byte of the bus (R65). -/
def SameEngine (s t : State) : Prop :=
  t.pc = s.pc ∧ t.pb = s.pb ∧ t.reports = s.reports ∧ t.halted = s.halted ∧
    ∀ addr, t.mem.readByte addr = s.mem.readByte addr

/-- Every general register but `b` as before. -/
def SameRegsBut (b : RegIdx) (s t : State) : Prop := ∀ r, r ≠ b → t.readReg r = s.readReg r

/-- Every general register as before. -/
def SameRegs (s t : State) : Prop := ∀ r, t.readReg r = s.readReg r

/-- Both accumulator halves as before. -/
def SameAcc (s t : State) : Prop := t.accHi = s.accHi ∧ t.accLo = s.accLo

/-- No change but in register `b`. -/
def OnlyReg (b : RegIdx) (s t : State) : Prop :=
  SameRegsBut b s t ∧ SameAcc s t ∧ t.draws = s.draws ∧ SameEngine s t

/-- No change but in the accumulator pair. -/
def OnlyAcc (s t : State) : Prop := SameRegs s t ∧ t.draws = s.draws ∧ SameEngine s t

/-- No change but in the pc. -/
def OnlyPc (s t : State) : Prop :=
  SameRegs s t ∧ SameAcc s t ∧ t.draws = s.draws ∧ t.pb = s.pb ∧ t.reports = s.reports ∧
    t.halted = s.halted ∧ ∀ addr, t.mem.readByte addr = s.mem.readByte addr

/-! ### Results of an instruction, each with its completion and its frame -/

/-- `exec i s` answers a next state in which register `b` holds the number `v` and nothing else changed. -/
def RegResult (i : Instr) (s : State) (b : RegIdx) (v : Nat) : Prop :=
  ∃ t, exec i s = .next t ∧ (t.readReg b).toNat = v ∧ OnlyReg b s t

/-- `exec i s` answers a next state in which bit `k` of register `b` is `bit k`, for each of the 32 bits, and
nothing else changed. -/
def RegBits (i : Instr) (s : State) (b : RegIdx) (bit : Nat → Bool) : Prop :=
  ∃ t, exec i s = .next t ∧ (∀ k, k < 32 → (t.readReg b).getLsbD k = bit k) ∧ OnlyReg b s t

/-- `exec i s` answers a next state in which the accumulator, read as `acc_hi * 2^32 + acc_lo`, is the
number `v` reduced mod `2^64`, and nothing else changed. -/
def AccResult (i : Instr) (s : State) (v : Int) : Prop :=
  ∃ t, exec i s = .next t ∧ ((t.accHi.toNat * 2 ^ 32 + t.accLo.toNat : Nat) : Int) = v % 2 ^ 64 ∧ OnlyAcc s t

/-- `exec i s` answers a next state in which both accumulator halves hold free values, two draws counted, and
nothing else changed (R150, R151, R263). The draws have no known value: what holds, holds for every value. -/
def AccDrawn (i : Instr) (s : State) : Prop :=
  ∃ t, exec i s = .next t ∧ t.accHi = Config.draw32 s.draws ∧ t.accLo = Config.draw32 (s.draws + 1) ∧
    t.draws = s.draws + 2 ∧ SameRegs s t ∧ SameEngine s t

/-- The accumulator before, as a number: `acc_hi * 2^32 + acc_lo` (R9). -/
def accBefore (s : State) : Nat := s.accHi.toNat * 2 ^ 32 + s.accLo.toNat

/-- The 27 function codes R91 leaves unassigned. -/
def unassignedFuncts : List Nat :=
  [0x08, 0x09, 0x0C, 0x0D, 0x0F, 0x10, 0x11, 0x12, 0x13, 0x14, 0x15, 0x16, 0x17, 0x19] ++
  [0x2C, 0x2D, 0x2E, 0x2F, 0x30, 0x31, 0x32, 0x33, 0x34, 0x35, 0x36, 0x37, 0x3F]

/-- The outcome of a rotation of `v` by `n` into register `b` under `ROTR_VARIANT = reference` (R198): the
value itself at 0, a free value at 1, and from 2 on the off-by-one formula, bit by bit; no other change. -/
def RefRotated (s : State) (b : RegIdx) (v : Word) (n : Nat) (o : Host.Outcome State Fault Refusal) : Prop :=
  ∃ t, o = .next t ∧ SameRegsBut b s t ∧ SameAcc s t ∧ SameEngine s t ∧
    (if n = 0 then t.readReg b = v ∧ t.draws = s.draws
     else if n = 1 then t.readReg b = Config.draw32 s.draws ∧ t.draws = s.draws + 1
     else t.draws = s.draws ∧ ∀ k, k < 32 →
       (t.readReg b).getLsbD k = ((decide (33 - n ≤ k) && v.getLsbD (k - (33 - n))) || v.getLsbD (k + n)))

/-! ### Which state an instruction may write (R34, R43) -/

/-- The general register an instruction's rule writes: field B, or none (R34). -/
def destReg : Instr → Option RegIdx
  | .add _ b _ | .addu _ b _ | .sub _ b _ | .subu _ b _ | .mul _ b _ => some b
  | .addi _ b _ | .addiu _ b _ => some b
  | .div _ _ | .divu _ _ | .madd _ _ | .maddu _ _ | .msub _ _ | .msubu _ _ => none
  | .and _ b _ | .or _ b _ | .xor _ b _ | .nor _ b _ | .not _ b => some b
  | .andi _ b _ | .ori _ b _ | .xori _ b _ => some b
  | .sll _ b _ | .srl _ b _ | .sra _ b _ | .rotr _ b _ => some b
  | .sllv _ b _ | .srlv _ b _ | .srav _ b _ | .rotrv _ b _ => some b
  | .mov _ b | .movn _ b _ | .movz _ b _ | .negu _ b => some b
  | .slt _ b _ | .sltu _ b _ | .slti _ b _ | .sltiu _ b _ => some b
  | .seb _ b | .seh _ b | .clo _ b | .clz _ b | .wsbh _ b => some b
  | .ext _ b _ _ | .ins _ b _ _ => some b
  | .lui b _ => some b

/-- The general registers an instruction's rule reads: at most two (R34). -/
def sourceRegs : Instr → List RegIdx
  | .add a _ c | .addu a _ c | .sub a _ c | .subu a _ c | .mul a _ c => [a, c]
  | .addi a _ _ | .addiu a _ _ => [a]
  | .div a c | .divu a c | .madd a c | .maddu a c | .msub a c | .msubu a c => [a, c]
  | .and a _ c | .or a _ c | .xor a _ c | .nor a _ c => [a, c]
  | .not a _ => [a]
  | .andi a _ _ | .ori a _ _ | .xori a _ _ => [a]
  | .sll a _ _ | .srl a _ _ | .sra a _ _ | .rotr a _ _ => [a]
  | .sllv a _ c | .srlv a _ c | .srav a _ c | .rotrv a _ c => [a, c]
  | .mov a _ | .negu a _ => [a]
  | .movn a _ c | .movz a _ c => [a, c]
  | .slt a _ c | .sltu a _ c => [a, c]
  | .slti a _ _ | .sltiu a _ _ => [a]
  | .seb a _ | .seh a _ | .clo a _ | .clz a _ | .wsbh a _ => [a]
  | .ext a _ _ _ => [a]
  | .ins a b _ _ => [a, b]
  | .lui _ _ => []

/-- The instructions that write the accumulator pair (R43). -/
def writesAcc : Instr → Bool
  | .div _ _ | .divu _ _ | .madd _ _ | .maddu _ _ | .msub _ _ | .msubu _ _ => true
  | _ => false

/-! ### The running CORE -/

/-- The report a fetch of word `k` of the bus draws, where the word is invalid (R95, R118, R261). -/
def reportAt (m : Memory) (k : Nat) : Option Report :=
  match decode (m.readWord k) with
  | .invalid kind => some ⟨kind, BitVec.ofNat 32 (4 * k), m.readWord k⟩
  | _ => none

/-- The reports a straight run over the `n` words from word `k` on draws, in order. -/
def reportsOver (m : Memory) (k n : Nat) : List Report :=
  (List.range' k n).filterMap (reportAt m)

/-- The invariant of a CORE that runs a program loaded before its first step: the bus is in its canonical
form and inside its bound; the pc is word-aligned (R36, R37) and at most `0x3FFFC` (R38); the CORE is not
halted; and the report log is exactly the reports of the invalid words below the pc, in order (R118, R250). -/
def RunInv (s : State) : Prop :=
  s.mem.wf = true ∧ s.mem.inBus 65535 = true ∧ s.pc.toNat % 4 = 0 ∧ s.pc.toNat ≤ 0x3FFFC ∧
    s.halted = false ∧ s.reports = reportsOver s.mem 0 (s.pc.toNat / 4)

/-- A run that stopped by the fatal fault did not end well; one that was stopped by the host did (R124). -/
def endedWell : Host.Outcome State Fault Refusal → Bool
  | .next s => !s.halted
  | .fault _ => false
  | .refused _ => false

end Sys2Proof.Safety
end

