-- ==== Sys2Proof/Certificates/Slice0/Obligations.lean ====
section
/-! DEFINITION. The statements for the provers, each from the spec's numbered rules. -/

open Sys2Proof Sys2Proof.Machine Sys2Proof.Safety

/-- Under every set of parameters a reset with program size n, applied in any state, leaves every general
register 0, pc 0, both accumulator halves 0, pb = n, no reports, halted false, and every bus word 0. (R48,
R290.) -/
def Obligations.ResetLeavesTheSpecValues : Prop :=
  ∀ (p : Config.Params) (n : Word) (s : State), ∃ t, clockEdgeIn p true n s = .next t ∧ hostNew n s = t ∧
    (∀ r, t.readReg r = 0) ∧ t.pc = 0 ∧ t.accHi = 0 ∧ t.accLo = 0 ∧ t.pb = n ∧ t.reports = [] ∧
    t.halted = false ∧ ∀ addr : Word, addr.toNat < 4 * p.memWords → busRead p.memWords t.mem addr = some 0

/-- For every program size n the state after reset meets RunInv: canonical bus inside its bound, pc word-aligned
and at most 0x3FFFC, not halted, and the report log equal to the reports of the invalid words below the pc
(none). (That the invariant is one of steps alone, with no host write between, is the model's choice, log
entry 13.) (R48, R36, R45, R60.) -/
def Obligations.RunInvHoldsAtReset : Prop :=
  ∀ n : Word, RunInv (State.resetWith n)

/-- For every state s that meets RunInv, if step s answers a next state t then t meets RunInv: the bus stays
canonical and inside its bound, the pc stays word-aligned and at most 0x3FFFC, the CORE is not halted, and
the report log is exactly the reports of the invalid words at the word addresses below the pc, in order.
(That the invariant is one of steps alone, with no host write between, is the model's choice, log entry 13.)
(R37, R38, R45, R65, R117, R118, R250.) -/
def Obligations.StepKeepsRunInv : Prop :=
  ∀ s t : State, RunInv s → step s = .next t → RunInv t

/-- From every state that is not halted with a word-aligned pc, k steps answer a next state as long as pc + 4k
is at most 0x3FFFC; in it the pc is the old pc + 4k, the bus and pb are unchanged, halted is false, and the
report log has grown by exactly the reports of the invalid words passed, in order; and where pc + 4k =
0x3FFFC the next step is the fatal bus-range fault, leaving that state with halted set, and the run did not
end well. (That the bus stays as it is over the k steps supposes no host write or reset between them, where
R74 and R125 allow one: the model's choice, log entry 13.) (R250, R124, R111, R117, R118, R262.) -/
def Obligations.StraightLineRunToTheEndOfTheBus : Prop :=
  ∀ (s : State) (k : Nat), s.halted = false → s.pc.toNat % 4 = 0 → s.pc.toNat + 4 * k ≤ 0x3FFFC →
    ∃ t, Sys2Proof.core.run k s = .next t ∧ t.pc.toNat = s.pc.toNat + 4 * k ∧
      (∀ addr, t.mem.readByte addr = s.mem.readByte addr) ∧ t.pb = s.pb ∧ t.halted = false ∧
      t.reports = s.reports ++ reportsOver s.mem (s.pc.toNat / 4) k ∧
      (s.pc.toNat + 4 * k = 0x3FFFC →
        step t = .fault (.busRange { t with halted := true }) ∧
        endedWell (Sys2Proof.core.run (k + 1) s) = false)

/-- Where the CORE is not halted, the bus gives the word w at the pc and w decodes to the instruction i, step is
exec of i in that state followed by the advance: whenever exec i s answers t, step s answers t with its pc
moved on by 4, and whatever other outcome exec gives is step's. (R110, R111, R117, R122.) -/
def Obligations.StepRunsTheDecodedInstruction : Prop :=
  ∀ (s : State) (w : Word) (i : Instr), s.halted = false → busRead 65535 s.mem s.pc = some w →
    decode w = .instr i →
    (∀ t, exec i s = .next t → step s = .next { t with pc := t.pc + 4 }) ∧
    (∀ r, exec i s = .fault r → step s = .fault r) ∧
    (∀ r, exec i s = .refused r → step s = .refused r)

/-- Where the CORE is not halted, the bus gives the word w at the pc and w is invalid of kind k, step answers a
next state whose report log is the old one with InvalidOpcode(k, pc, w) appended, whose pc is the old pc +
4, and whose registers, accumulator, pb, halt flag and bus are unchanged; the invalid_op signal is high with
that report; and the kinds' codes are 1 to 4. (R118, R261.) -/
def Obligations.InvalidWordIsReportedAndSkipped : Prop :=
  (∀ (s : State) (w : Word) (k : InvalidKind), s.halted = false → busRead 65535 s.mem s.pc = some w →
    decode w = .invalid k →
    ∃ t, step s = .next t ∧ t.reports = s.reports ++ [⟨k, s.pc, w⟩] ∧ t.pc = s.pc + 4 ∧ SameRegs s t ∧
      SameAcc s t ∧ t.draws = s.draws ∧ t.pb = s.pb ∧ t.halted = false ∧
      (∀ addr, t.mem.readByte addr = s.mem.readByte addr) ∧
      invalidOp s t = true ∧ invalidReport s t = some ⟨k, s.pc, w⟩) ∧
    InvalidKind.opcodeOutOfRange.code = 1 ∧ InvalidKind.noJumpHandler.code = 2 ∧
    InvalidKind.noImmHandler.code = 3 ∧ InvalidKind.noFunctHandler.code = 4

/-- Where the CORE is not halted and the pc is 0x3FFFC or more, step is the bus-range fault; the state it leaves
has halted (and the fatal signal) true and every register, the accumulator, the pc, pb, the reports and the
bus unchanged; that state has no further step, and a reset leaves it; the fault's code is 5. (R262, R111.) -/
def Obligations.FetchBeyondTheBusHalts : Prop :=
  (∀ s : State, s.halted = false → 0x3FFFC ≤ s.pc.toNat →
    ∃ t, step s = .fault (.busRange t) ∧ t.halted = true ∧ fatal t = true ∧ SameRegs s t ∧ SameAcc s t ∧
      t.draws = s.draws ∧ t.pc = s.pc ∧ t.pb = s.pb ∧ t.reports = s.reports ∧
      (∀ addr, t.mem.readByte addr = s.mem.readByte addr) ∧
      step t = .fault (.stuck t) ∧ ∀ n, clockEdge true n t = .next (State.resetWith n)) ∧
    busRangeCode = 5

/-- In every state with halted set, step answers no next state but the stuck fault, so every run of one or more
steps from it is that fault, and even the run of no steps is not one that ended well. (R110.) -/
def Obligations.HaltedCoreHasNoStep : Prop :=
  ∀ s : State, s.halted = true → ∀ k : Nat,
    Sys2Proof.core.run (k + 1) s = .fault (.stuck s) ∧ endedWell (Sys2Proof.core.run k s) = false

/-- For all states s and t, if step s answers t then t's pc is the old pc + 4 reduced mod 2^32: no instruction
transfers control. (R37, R38, R117, R250.) -/
def Obligations.PcAdvancesByFourOnly : Prop :=
  ∀ s t : State, step s = .next t → t.pc.toNat = (s.pc.toNat + 4) % 2 ^ 32

/-- For all states s and t, if step s answers t then every byte of the bus, pb and the halt flag (which is
false) are as before. The step whose fetch faults answers no next state: FetchBeyondTheBusHalts says what it
does. (R41, R65, R110, R118, R120, R296.) -/
def Obligations.StepNeverWritesBusOrProgramBreak : Prop :=
  ∀ s t : State, step s = .next t →
    (∀ addr, t.mem.readByte addr = s.mem.readByte addr) ∧ t.pb = s.pb ∧ s.halted = false ∧ t.halted = false

/-- For all states s, t and values v, if step s answers t, then step of s with pb replaced by v answers t with
pb replaced by v. (That a division by zero draws the same values in both steps, the counts of draws being
equal, is the model's choice, log entry 3.) (R41.) -/
def Obligations.ProgramBreakAffectsNothing : Prop :=
  ∀ (s t : State) (v : Word), step s = .next t → step { s with pb := v } = .next { t with pb := v }

/-- For all states s, t and logs rs, if step s answers t, then t's log is s's log with at most one report
appended, and step of s with its log replaced by rs answers t with the same report appended to rs. (That a
division by zero draws the same values in both steps, the counts of draws being equal, is the model's
choice, log entry 3.) (R45, R118, R266.) -/
def Obligations.ReportLogIsAppendedAndNeverRead : Prop :=
  ∀ (s t : State) (rs : List Report), step s = .next t →
    ∃ new : List Report, new.length ≤ 1 ∧ t.reports = s.reports ++ new ∧
      step { s with reports := rs } = .next { t with reports := rs ++ new }

/-- For all states s and t and bus contents m that give the same word at the pc as s's bus, if step s answers t
then step of s with the bus m answers t with the bus m. (That a division by zero draws the same values in
both steps, the counts of draws being equal, is the model's choice, log entry 3.) (R65, R68, R71, R111.) -/
def Obligations.StepSeesOnlyTheFetchedWord : Prop :=
  ∀ (s t : State) (m : Memory), busRead 65535 m s.pc = busRead 65535 s.mem s.pc → step s = .next t →
    step { s with mem := m } = .next { t with mem := m }

/-- The word 0 decodes to sll of register 0 into register 0 by 0, and where the CORE is not halted and the bus
gives the word 0 at the pc, step answers a next state in which only the pc has changed, by + 4. (R96.) -/
def Obligations.ZeroWordIsANoOp : Prop :=
  decode 0 = .instr (.sll 0 0 0) ∧
    ∀ s : State, s.halted = false → busRead 65535 s.mem s.pc = some 0 →
      ∃ t, step s = .next t ∧ t.pc = s.pc + 4 ∧ OnlyPc s t

/-- Where the CORE is not halted and the bus gives at the pc a word that decodes to div or divu with x[C] = 0,
step answers a next state with acc_hi and acc_lo the next two free values, the pc advanced by 4, and the
registers, reports, pb, halt flag and bus unchanged. (How a free value is held is the model's choice, log
entry 3.) (R263.) -/
def Obligations.DivisionByZeroIsNoCondition : Prop :=
  ∀ (s : State) (w : Word) (a c : RegIdx), s.halted = false → busRead 65535 s.mem s.pc = some w →
    (decode w = .instr (.div a c) ∨ decode w = .instr (.divu a c)) → s.readReg c = 0 →
    ∃ t, step s = .next t ∧ t.accHi = Config.draw32 s.draws ∧ t.accLo = Config.draw32 (s.draws + 1) ∧
      t.draws = s.draws + 2 ∧ t.pc = s.pc + 4 ∧ SameRegs s t ∧ t.reports = s.reports ∧ t.pb = s.pb ∧
      t.halted = false ∧ ∀ addr, t.mem.readByte addr = s.mem.readByte addr

/-- For all states s and t, if step s answers t, the bus gave a word w at the pc, and the invalid_op signal of
the step is high exactly where w decodes to an invalid word. (That the report is none where the signal is
low is the model's choice, log entry 12.) (R49, R261, R266.) -/
def Obligations.InvalidOpSignalMarksInvalidWords : Prop :=
  ∀ s t : State, step s = .next t →
    ∃ w, busRead 65535 s.mem s.pc = some w ∧ (invalidOp s t = true ↔ ∃ k, decode w = .invalid k)

/-- For every well-formed set of parameters with IMM_LSB = 0 and every instruction with every operand, decoding
its encoding gives it back; in particular at the default tables. (That the encoder is the inverse only at
IMM_LSB = 0 is log entry 9.) (R83, R85, R91, R92, R97, R98.) -/
def Obligations.DecodeInvertsEncode : Prop :=
  (∀ p : Config.Params, p.wellFormed = true → p.immLsb = 0 →
    ∀ i : Instr, decodeIn p (encodeIn p i) = .instr i) ∧
  ∀ i : Instr, decode (encode i) = .instr i

/-- For every word with op = word[31:26] and func = word[5:0]: it is invalid as OpcodeOutOfRange exactly where
op is 44 to 63, as NoJumpHandler exactly where op is 1 to 7, as NoImmHandler exactly where op is 16 to 43,
as NoFunctHandler exactly where op is 0 and func is one of the 27 unassigned codes; and it is an instruction
exactly where op is 0 with another func, or op is 8 to 15. (R95, R93.) -/
def Obligations.InvalidWordsByKind : Prop :=
  ∀ w : Word,
    (decode w = .invalid .opcodeOutOfRange ↔ 44 ≤ w.toNat / 2 ^ 26) ∧
    (decode w = .invalid .noJumpHandler ↔ 1 ≤ w.toNat / 2 ^ 26 ∧ w.toNat / 2 ^ 26 ≤ 7) ∧
    (decode w = .invalid .noImmHandler ↔ 16 ≤ w.toNat / 2 ^ 26 ∧ w.toNat / 2 ^ 26 ≤ 43) ∧
    (decode w = .invalid .noFunctHandler ↔ w.toNat / 2 ^ 26 = 0 ∧ w.toNat % 64 ∈ unassignedFuncts) ∧
    ((∃ i, decode w = .instr i) ↔
      (w.toNat / 2 ^ 26 = 0 ∧ w.toNat % 64 ∉ unassignedFuncts) ∨
      (8 ≤ w.toNat / 2 ^ 26 ∧ w.toNat / 2 ^ 26 ≤ 15))

/-- The spec's own words decode as its tables say: 0x00201020 is add $0, $1, $2; 0x002317E0 is add $3, $1, $2
with field D ignored; 0x00201E7D is ext $0, $1, 25, 3; 0x2023FFFF is addi $3, $1, -1; 0x0040101E is msub $2,
$2; 0x3C03ABCD is lui $3, 0xABCD; 0x8C220004 and 0x0BFFFFFF and 0xB0000000 and 0x0000003F are invalid of
kinds 3, 2, 1, 4. (95_test_vectors.md section 2.1, R91, R92, R95.) -/
def Obligations.SpecWordsDecode : Prop :=
  decode 0x00201020 = .instr (.add 1 0 2) ∧ decode 0x002317E0 = .instr (.add 1 3 2) ∧
    decode 0x00201E7D = .instr (.ext 1 0 25 3) ∧ decode 0x2023FFFF = .instr (.addi 1 3 0xFFFF) ∧
    decode 0x0040101E = .instr (.msub 2 2) ∧ decode 0x3C03ABCD = .instr (.lui 3 0xABCD) ∧
    decode 0x8C220004 = .invalid .noImmHandler ∧ decode 0x0BFFFFFF = .invalid .noJumpHandler ∧
    decode 0xB0000000 = .invalid .opcodeOutOfRange ∧ decode 0x0000003F = .invalid .noFunctHandler

/-- For every instruction and every state, exec answers a next state, with the pc, pb, reports, halt flag and
every byte of the bus as before (the step then advances the pc). (R264, R120, R65, R270.) -/
def Obligations.EveryInstructionCompletes : Prop :=
  ∀ (i : Instr) (s : State), ∃ t, exec i s = .next t ∧ SameEngine s t

/-- For every instruction i and all states s, t with exec i s = t: every register that is not i's destination
(field B, or none for the six accumulator instructions) is as before, and where i is not one of div, divu,
madd, maddu, msub, msubu, both accumulator halves are as before and nothing is drawn. (R34, R35, R43, R119.) -/
def Obligations.InstructionWritesOnlyItsDestination : Prop :=
  ∀ (i : Instr) (s t : State), exec i s = .next t →
    (∀ r, destReg i ≠ some r → t.readReg r = s.readReg r) ∧
    (writesAcc i = false → SameAcc s t ∧ t.draws = s.draws) ∧
    (writesAcc i = true → destReg i = none)

/-- For every instruction i and states s, s' that agree on i's source registers (at most two), exec answers t
and t' such that every register is either left alone by both or given the same value by both; and where s
and s' also agree on the accumulator and the draws so far, the accumulators of t and t' agree. (That for a
zero divisor equal counts of draws draw alike is the model's choice, log entry 3: the draw is the one
nondeterminism of the spec's step.) (R34, R35, R43, R119.) -/
def Obligations.InstructionReadsOnlyItsSources : Prop :=
  ∀ (i : Instr) (s s' : State), (sourceRegs i).length ≤ 2 ∧
    ((∀ r ∈ sourceRegs i, s'.readReg r = s.readReg r) →
      ∃ t t', exec i s = .next t ∧ exec i s' = .next t' ∧
        (∀ r, (t.readReg r = s.readReg r ∧ t'.readReg r = s'.readReg r) ∨ t'.readReg r = t.readReg r) ∧
        (SameAcc s s' → s'.draws = s.draws → SameAcc t t'))

/-- For every instruction and state, replacing the accumulator halves before it changes no general register
after it. (R43.) -/
def Obligations.AccumulatorNeverReachesARegister : Prop :=
  ∀ (i : Instr) (s : State) (hi lo : Word),
    ∃ t t', exec i s = .next t ∧ exec i { s with accHi := hi, accLo := lo } = .next t' ∧ SameRegs t t'

/-- For every immediate, register b and state, lui into register 0 followed by mov from register 0 to b answers
a state in which both register 0 and register b hold the immediate in the upper half, and addi into register
0 from register 0 adds to what it held. (R32.) -/
def Obligations.RegisterZeroIsOrdinary : Prop :=
  ∀ (imm : Imm) (b : RegIdx) (s : State),
    ∃ t u v, exec (.lui 0 imm) s = .next t ∧ exec (.mov 0 b) t = .next u ∧
      (u.readReg 0).toNat = imm.toNat * 2 ^ 16 ∧ (u.readReg b).toNat = imm.toNat * 2 ^ 16 ∧
      exec (.addi 0 0 1) u = .next v ∧ (v.readReg 0).toNat = imm.toNat * 2 ^ 16 + 1

/-- For every number of words, canonical bus, address and value: below 4 times the number of words the write
gives a canonical bus in which every address with the same word index reads the value and every other
address reads as before; from there on the write and the read fail. At the default MEM_WORDS that bound is
0x3FFFC. (R6, R60, R61, R62, R63, R64.) -/
def Obligations.BusWriteIsReadBack : Prop :=
  (∀ (words : Nat) (m : Memory) (addr v : Word), m.wf = true →
    (addr.toNat < 4 * words → ∃ m', busWrite words m addr v = some m' ∧ m'.wf = true ∧
      ∀ b : Word, busRead words m' b =
        if b.toNat / 4 = addr.toNat / 4 then some v else busRead words m b) ∧
    (4 * words ≤ addr.toNat → busWrite words m addr v = none ∧ busRead words m addr = none)) ∧
  4 * defaultParams.memWords = 0x3FFFC

/-- Under every well-formed set of parameters and for every list of at most MEM_WORDS words, booting answers a
state whose bus is canonical, reads word i of the list at word index i and 0 at every index past the list,
and which in every other field is the state after reset with program size the list's length; and boot is
this at the default parameters. (R293.) -/
def Obligations.BootPlacesTheProgram : Prop :=
  (∀ (p : Config.Params) (ws : List Word), p.wellFormed = true → ws.length ≤ p.memWords →
    ∃ t, bootIn p ws = .next t ∧ t.mem.wf = true ∧
      (∀ k, k < p.memWords → busRead p.memWords t.mem (BitVec.ofNat 32 (4 * k)) = some (ws.getD k 0)) ∧
      { t with mem := [] } = State.resetWith (BitVec.ofNat 32 ws.length)) ∧
  ∀ ws, boot ws = bootIn defaultParams ws

/-- Under every set of parameters and in every state, ibus_range_err is high exactly where the pc is 4 times
MEM_WORDS or more, ibus_data gives a word exactly where it is low, and where the CORE is not halted a clock
edge without rst answers the bus-range fault, leaving the state with halted set, where it is high, and a
next state with the pc's word run, not halted, where it is low. At the default parameters that bound is
0x3FFFC and the edge is step. (R6, R49, R62, R111, R122.) -/
def Obligations.FetchPortBoundIsTheStepsBound : Prop :=
  (∀ (p : Config.Params) (s : State) (n : Word),
    (ibusRangeErrIn p s = true ↔ 4 * p.memWords ≤ s.pc.toNat) ∧
    (ibusDataIn p s = none ↔ ibusRangeErrIn p s = true) ∧
    (s.halted = false → ibusRangeErrIn p s = true →
      clockEdgeIn p false n s = .fault (.busRange { s with halted := true })) ∧
    (s.halted = false → ibusRangeErrIn p s = false →
      ∃ w t, ibusDataIn p s = some w ∧ dispatchWord p (execIn p) w s = .next t ∧
        clockEdgeIn p false n s = .next { t with pc := t.pc + 4 } ∧ t.halted = false)) ∧
  4 * defaultParams.memWords = 0x3FFFC ∧ ∀ (s : State) (n : Word), clockEdge false n s = step s

/-- Under every set of parameters, for every state with a canonical bus: below 4 times MEM_WORDS a host write
answers a next state that differs from the old one in the bus alone, the bus canonical, in which a host read
of the address gives the value, and the next fetch gives the value where the pc has the same word index and
the word it gave before where it has another; from there on the host's write and read fail. (That a failed
host access leaves the CORE as it was is log entry 10.) (R6, R62, R63, R64, R74, R125.) -/
def Obligations.HostWriteIsSeenByTheNextFetch : Prop :=
  ∀ (p : Config.Params) (s : State) (addr v : Word), s.mem.wf = true →
    (addr.toNat < 4 * p.memWords → ∃ t, hostWriteIn p addr v s = .next t ∧ { t with mem := s.mem } = s ∧
      t.mem.wf = true ∧ hostReadIn p addr t = .ok v ∧
      ibusDataIn p t = if s.pc.toNat / 4 = addr.toNat / 4 then some v else ibusDataIn p s) ∧
    (4 * p.memWords ≤ addr.toNat →
      hostWriteIn p addr v s = .fault (.hostRange addr) ∧ hostReadIn p addr s = .error (.hostRange addr))

/-- For every state, read_register(i) of a 5-bit index is the register's value, the same as the dbg_data port
shows, and read_register(i) with i of 32 or more is refused by name. (R51.) -/
def Obligations.ReadRegisterCallAndPort : Prop :=
  ∀ s : State, (∀ r : RegIdx, readRegister r.toNat s = .ok (s.readReg r) ∧ dbgData r s = s.readReg r) ∧
    ∀ i : Nat, 32 ≤ i → readRegister i s = .error (.noSuchRegister i)

/-- Under every set of parameters, where the CORE is not halted and the bus gives at the pc the jump-form word
of op 1 to 7 and a target, and JUMP_TABLE has a handler for op: if the handler writes v to the pc, step
answers the state with pc = v + 4, and if it writes none, with pc = old pc + 4, everything else unchanged.
(The handler's form, a function of the target and the pc, is log entry 7.) (R252, R84, R114, R117.) -/
def Obligations.JumpHandlerWriteIsThenAdvanced : Prop :=
  ∀ (p : Config.Params) (s : State) (op : Nat) (target : Target) (handler : Config.JumpHandler),
    1 ≤ op → op ≤ 7 → s.halted = false → busRead p.memWords s.mem s.pc = some (jumpWord op target) →
    p.jumpTable (BitVec.ofNat 6 op) = some handler →
    ∃ t, stepIn p s = .next t ∧ OnlyPc s t ∧
      t.pc = match handler target s.pc with
        | some v => v + 4
        | none => s.pc + 4

/-- Under parameters with ROTR_VARIANT = reference, rotr by n and rotrv by a register with x[C] mod 32 = n
answer a state in which x[B] is, for n = 0, the value v; for n = 1, the next free value, one draw counted;
for 2 <= n <= 31, bit k is bit k - (33 - n) of v or bit k + n of v; nothing else changes. The round trip
fails: rotating 0x12345678 by 4 then 28 gives 0x01234567 then 0x2468ACE0. The default variant is rotate.
(How a free value is held is the model's choice, log entry 3.) (R198.) -/
def Obligations.ReferenceRotateIsOffByOne : Prop :=
  (∀ (p : Config.Params) (s : State) (a b c : RegIdx) (d : Amount), p.rotrVariant = .reference →
    RefRotated s b (s.readReg a) d.toNat (execIn p (.rotr a b d) s) ∧
    RefRotated s b (s.readReg a) ((s.readReg c).toNat % 32) (execIn p (.rotrv a b c) s)) ∧
  (∀ (p : Config.Params) (s : State), p.rotrVariant = .reference → s.readReg 1 = 0x12345678 →
    ∃ t u, execIn p (.rotr 1 1 4) s = .next t ∧ t.readReg 1 = 0x01234567 ∧
      execIn p (.rotr 1 1 28) t = .next u ∧ u.readReg 1 = 0x2468ACE0) ∧
  defaultParams.rotrVariant = .rotate

/-- For every register pair, every amount n of 1 to 31 and every state, rotr by n from A to B and then rotr by
32 - n from B to B answer states at the end of which x[B] is the old x[A]. (R196, 95_test_vectors.md L1-7.) -/
def Obligations.RotateRoundTrip : Prop :=
  ∀ (a b : RegIdx) (n : Amount) (s : State), 1 ≤ n.toNat →
    ∃ t u, exec (.rotr a b n) s = .next t ∧ exec (.rotr b b (BitVec.ofNat 5 (32 - n.toNat))) t = .next u ∧
      u.readReg b = s.readReg a

/-- For all registers and states, clo of A into B and clz of A into C, each from the same state, answer states
whose results add up to 32. (R232, R233, 95_test_vectors.md L1-8.) -/
def Obligations.CloPlusClzIsThirtyTwo : Prop :=
  ∀ (a b c : RegIdx) (s : State), ∃ t u, exec (.clo a b) s = .next t ∧ exec (.clz a c) s = .next u ∧
    (t.readReg b).toNat + (u.readReg c).toNat = 32

/-- For every size, registers and state with x[C] = 0 and C different from B: ext A to B at pos 0, then ins B to
C at pos 0, leaves x[C] equal to the extracted field; and with x[1] = 0x12345678 and x[3] = 0, ext $2, $1,
8, 8 then ins $3, $2, 8, 8 leaves x[2] = 0x5600 and x[3] = 0. (R234, R235, 95_test_vectors.md L1-5,
90_conflicts.md C7.) -/
def Obligations.ExtThenInsAtBitZero : Prop :=
  (∀ (a b c : RegIdx) (size : Amount) (s : State), c ≠ b → s.readReg c = 0 →
    ∃ t u, exec (.ext a b 0 size) s = .next t ∧ exec (.ins b c 0 size) t = .next u ∧
      (u.readReg c).toNat = (s.readReg a).toNat % 2 ^ size.toNat) ∧
  ∀ s : State, s.readReg 1 = 0x12345678 → s.readReg 3 = 0 →
    ∃ t u, exec (.ext 1 2 8 8) s = .next t ∧ exec (.ins 2 3 8 8) t = .next u ∧
      u.readReg 2 = 0x5600 ∧ u.readReg 3 = 0

/-- For every word with op 0 and func 0x20 (add) or 0x21 (addu), whatever field D holds, it decodes to that
instruction with its fields, and exec answers, in every state, x[B] = (x[A] + x[C]) mod 2^32 with nothing
else changed. (R130, R131.) -/
def Obligations.AddAndAdduWrap : Prop :=
  ∀ (a b c d : BitVec 5) (s : State),
    decode (regWord 0x20 a b c d) = .instr (.add a b c) ∧
    RegResult (.add a b c) s b (((s.readReg a).toNat + (s.readReg c).toNat) % 2 ^ 32) ∧
    decode (regWord 0x21 a b c d) = .instr (.addu a b c) ∧
    RegResult (.addu a b c) s b (((s.readReg a).toNat + (s.readReg c).toNat) % 2 ^ 32)

/-- For every word with op 0x08 (addi) or 0x09 (addiu) it decodes to that instruction with its fields, and exec
answers, in every state, x[B] = x[A] plus the sign-extended (addi) or zero-extended (addiu) immediate, mod
2^32, with nothing else changed. (R132, R133.) -/
def Obligations.AddImmediatesWrap : Prop :=
  ∀ (a b : BitVec 5) (imm : BitVec 16) (s : State),
    decode (immWord 0x08 a b imm) = .instr (.addi a b imm) ∧
    RegResult (.addi a b imm) s b (((s.readReg a).toNat + (if imm.toNat < 2 ^ 15 then imm.toNat else imm.toNat + 0xFFFF0000)) % 2 ^ 32) ∧
    decode (immWord 0x09 a b imm) = .instr (.addiu a b imm) ∧
    RegResult (.addiu a b imm) s b (((s.readReg a).toNat + imm.toNat) % 2 ^ 32)

/-- For every word with op 0 and func 0x22 (sub) or 0x23 (subu) it decodes to that instruction with its fields,
and exec answers, in every state, x[B] = (x[A] - x[C]) mod 2^32 with nothing else changed. (R134, R135.) -/
def Obligations.SubAndSubuWrap : Prop :=
  ∀ (a b c d : BitVec 5) (s : State),
    decode (regWord 0x22 a b c d) = .instr (.sub a b c) ∧
    RegResult (.sub a b c) s b ((((s.readReg a).toNat : Int) - (s.readReg c).toNat) % 2 ^ 32).toNat ∧
    decode (regWord 0x23 a b c d) = .instr (.subu a b c) ∧
    RegResult (.subu a b c) s b ((((s.readReg a).toNat : Int) - (s.readReg c).toNat) % 2 ^ 32).toNat

/-- For every word with op 0 and func 0x18 it decodes to mul with its fields, and exec answers, in every state,
x[B] = (s32(x[A]) * s32(x[C])) mod 2^32, which is also (x[A] * x[C]) mod 2^32, with nothing else changed,
the accumulator included. (R136.) -/
def Obligations.MulGivesTheLowWord : Prop :=
  ∀ (a b c d : BitVec 5) (s : State),
    decode (regWord 0x18 a b c d) = .instr (.mul a b c) ∧
    RegResult (.mul a b c) s b ((s32 (s.readReg a) * s32 (s.readReg c)) % 2 ^ 32).toNat ∧
    RegResult (.mul a b c) s b (((s.readReg a).toNat * (s.readReg c).toNat) % 2 ^ 32)

/-- For every word with op 0 and func 0x1A it decodes to div with fields A and C, and exec answers, in every
state: for x[C] not 0, acc64 = trunc(s32(x[A]) / s32(x[C])) mod 2^64 with nothing else changed; for x[C] =
0, both halves the next two free values with no register and nothing of the engine changed. (How a free
value is held is the model's choice, log entry 3.) (R150.) -/
def Obligations.DivGivesTheSignedQuotient : Prop :=
  ∀ (a b c d : BitVec 5) (s : State),
    decode (regWord 0x1A a b c d) = .instr (.div a c) ∧
    (s.readReg c ≠ 0 → AccResult (.div a c) s (Int.tdiv (s32 (s.readReg a)) (s32 (s.readReg c)))) ∧
    (s.readReg c = 0 → AccDrawn (.div a c) s)

/-- For every word with op 0 and func 0x1B it decodes to divu with fields A and C, and exec answers, in every
state: for x[C] not 0, acc_hi = 0 and acc_lo = floor(x[A] / x[C]) with nothing else changed; for x[C] = 0,
both halves the next two free values with no register and nothing of the engine changed. (How a free value
is held is the model's choice, log entry 3.) (R151.) -/
def Obligations.DivuGivesTheUnsignedQuotient : Prop :=
  ∀ (a b c d : BitVec 5) (s : State),
    decode (regWord 0x1B a b c d) = .instr (.divu a c) ∧
    (s.readReg c ≠ 0 → ∃ t, exec (.divu a c) s = .next t ∧ t.accHi = 0 ∧
      t.accLo.toNat = (s.readReg a).toNat / (s.readReg c).toNat ∧ OnlyAcc s t) ∧
    (s.readReg c = 0 → AccDrawn (.divu a c) s)

/-- For every word with op 0 and func 0x1C (madd) or 0x1D (maddu) it decodes to that instruction with fields A
and C, and exec answers, in every state, acc64 = (acc64 + product) mod 2^64, the product signed for madd and
unsigned for maddu, with nothing else changed. (R152, R153.) -/
def Obligations.MaddAndMadduAccumulate : Prop :=
  ∀ (a b c d : BitVec 5) (s : State),
    decode (regWord 0x1C a b c d) = .instr (.madd a c) ∧
    AccResult (.madd a c) s (accBefore s + s32 (s.readReg a) * s32 (s.readReg c)) ∧
    decode (regWord 0x1D a b c d) = .instr (.maddu a c) ∧
    AccResult (.maddu a c) s (accBefore s + (s.readReg a).toNat * (s.readReg c).toNat)

/-- For every word with op 0 and func 0x1E (msub) or 0x1F (msubu) it decodes to that instruction with fields A
and C, and exec answers, in every state, acc64 = (acc64 - product) mod 2^64, the product signed for msub and
unsigned for msubu, with nothing else changed. (R154, R155.) -/
def Obligations.MsubAndMsubuAccumulate : Prop :=
  ∀ (a b c d : BitVec 5) (s : State),
    decode (regWord 0x1E a b c d) = .instr (.msub a c) ∧
    AccResult (.msub a c) s (accBefore s - s32 (s.readReg a) * s32 (s.readReg c)) ∧
    decode (regWord 0x1F a b c d) = .instr (.msubu a c) ∧
    AccResult (.msubu a c) s ((accBefore s : Int) - (s.readReg a).toNat * (s.readReg c).toNat)

/-- For every word with op 0 and func 0x24 to 0x27 it decodes to and, or, xor, nor with its fields, and exec
answers, in every state, each bit of x[B] as the operation of the bits of x[A] and x[C] at its position,
with nothing else changed. (R170, R172, R174, R176.) -/
def Obligations.AndOrXorNorOfRegisters : Prop :=
  ∀ (a b c d : BitVec 5) (s : State),
    decode (regWord 0x24 a b c d) = .instr (.and a b c) ∧
    RegBits (.and a b c) s b (fun k => (s.readReg a).getLsbD k && (s.readReg c).getLsbD k) ∧
    decode (regWord 0x25 a b c d) = .instr (.or a b c) ∧
    RegBits (.or a b c) s b (fun k => (s.readReg a).getLsbD k || (s.readReg c).getLsbD k) ∧
    decode (regWord 0x26 a b c d) = .instr (.xor a b c) ∧
    RegBits (.xor a b c) s b (fun k => (s.readReg a).getLsbD k != (s.readReg c).getLsbD k) ∧
    decode (regWord 0x27 a b c d) = .instr (.nor a b c) ∧
    RegBits (.nor a b c) s b (fun k => !((s.readReg a).getLsbD k || (s.readReg c).getLsbD k))

/-- For every word with op 0x0C, 0x0D, 0x0E it decodes to andi, ori, xori with its fields, and exec answers, in
every state, each bit of x[B] as the operation of the bit of x[A] and the bit of the immediate, which is 0
at positions 16 to 31, with nothing else changed. (R171, R173, R175.) -/
def Obligations.AndOrXorOfImmediates : Prop :=
  ∀ (a b : BitVec 5) (imm : BitVec 16) (s : State),
    decode (immWord 0x0C a b imm) = .instr (.andi a b imm) ∧
    RegBits (.andi a b imm) s b (fun k => (s.readReg a).getLsbD k && imm.getLsbD k) ∧
    decode (immWord 0x0D a b imm) = .instr (.ori a b imm) ∧
    RegBits (.ori a b imm) s b (fun k => (s.readReg a).getLsbD k || imm.getLsbD k) ∧
    decode (immWord 0x0E a b imm) = .instr (.xori a b imm) ∧
    RegBits (.xori a b imm) s b (fun k => (s.readReg a).getLsbD k != imm.getLsbD k)

/-- For every word with op 0 and func 0x28 (not) or 0x29 (negu), whatever fields C and D hold, it decodes to
that instruction with fields A and B, and exec answers, in every state, x[B] = 2^32 - 1 - x[A], the bitwise
complement, with nothing else changed. (R177, R213.) -/
def Obligations.NotAndNeguComplement : Prop :=
  ∀ (a b c d : BitVec 5) (s : State),
    decode (regWord 0x28 a b c d) = .instr (.not a b) ∧
    RegResult (.not a b) s b (2 ^ 32 - 1 - (s.readReg a).toNat) ∧
    decode (regWord 0x29 a b c d) = .instr (.negu a b) ∧
    RegResult (.negu a b) s b (2 ^ 32 - 1 - (s.readReg a).toNat)

/-- For every word with op 0 and func 0x00 (sll) or 0x04 (sllv) it decodes to that instruction with its fields,
and exec answers, in every state, x[B] = (x[A] * 2^n) mod 2^32 with n = D for sll and n = x[C] mod 32 for
sllv, with nothing else changed. (R190, R192.) -/
def Obligations.ShiftLeftLogical : Prop :=
  ∀ (a b c d : BitVec 5) (s : State),
    decode (regWord 0x00 a b c d) = .instr (.sll a b d) ∧
    RegResult (.sll a b d) s b ((s.readReg a).toNat * 2 ^ d.toNat % 2 ^ 32) ∧
    decode (regWord 0x04 a b c d) = .instr (.sllv a b c) ∧
    RegResult (.sllv a b c) s b ((s.readReg a).toNat * 2 ^ ((s.readReg c).toNat % 32) % 2 ^ 32)

/-- For every word with op 0 and func 0x02 (srl) or 0x06 (srlv) it decodes to that instruction with its fields,
and exec answers, in every state, x[B] = floor(x[A] / 2^n) with n = D for srl and n = x[C] mod 32 for srlv,
with nothing else changed. (R191, R193.) -/
def Obligations.ShiftRightLogical : Prop :=
  ∀ (a b c d : BitVec 5) (s : State),
    decode (regWord 0x02 a b c d) = .instr (.srl a b d) ∧
    RegResult (.srl a b d) s b ((s.readReg a).toNat / 2 ^ d.toNat) ∧
    decode (regWord 0x06 a b c d) = .instr (.srlv a b c) ∧
    RegResult (.srlv a b c) s b ((s.readReg a).toNat / 2 ^ ((s.readReg c).toNat % 32))

/-- For every word with op 0 and func 0x03 (sra) or 0x07 (srav) it decodes to that instruction with its fields,
and exec answers, in every state, x[B] = floor(s32(x[A]) / 2^n) mod 2^32 with n = D for sra and n = x[C] mod
32 for srav, with nothing else changed. (R194, R195.) -/
def Obligations.ShiftRightArithmetic : Prop :=
  ∀ (a b c d : BitVec 5) (s : State),
    decode (regWord 0x03 a b c d) = .instr (.sra a b d) ∧
    RegResult (.sra a b d) s b (Int.fdiv (s32 (s.readReg a)) (2 ^ d.toNat) % 2 ^ 32).toNat ∧
    decode (regWord 0x07 a b c d) = .instr (.srav a b c) ∧
    RegResult (.srav a b c) s b (Int.fdiv (s32 (s.readReg a)) (2 ^ ((s.readReg c).toNat % 32)) % 2 ^ 32).toNat

/-- For every word with op 0 and func 0x01 (rotr) or 0x05 (rotrv) it decodes to that instruction with its
fields, and exec (at the default ROTR_VARIANT) answers, in every state, x[B] whose bit k is bit (k + n) mod
32 of x[A], with n = D for rotr and n = x[C] mod 32 for rotrv, with nothing else changed; under ROTR_VARIANT
= reference (the other value, rule R198) a statement of its own. (R196, R197.) -/
def Obligations.RotateRight : Prop :=
  ∀ (a b c d : BitVec 5) (s : State),
    decode (regWord 0x01 a b c d) = .instr (.rotr a b d) ∧
    RegBits (.rotr a b d) s b (fun k => (s.readReg a).getLsbD ((k + d.toNat) % 32)) ∧
    decode (regWord 0x05 a b c d) = .instr (.rotrv a b c) ∧
    RegBits (.rotrv a b c) s b (fun k => (s.readReg a).getLsbD ((k + (s.readReg c).toNat % 32) % 32))

/-- For every word with op 0 and func 0x0E, whatever fields C and D hold, it decodes to mov with fields A and B,
and exec answers, in every state, x[B] = x[A] with nothing else changed. (R210.) -/
def Obligations.MovCopiesARegister : Prop :=
  ∀ (a b c d : BitVec 5) (s : State),
    decode (regWord 0x0E a b c d) = .instr (.mov a b) ∧
    RegResult (.mov a b) s b (s.readReg a).toNat

/-- For every word with op 0 and func 0x0B (movn) or 0x0A (movz) it decodes to that instruction with its fields,
and exec answers, in every state: movn gives x[B] = x[A] where x[C] is not 0 and leaves x[B] where it is 0;
movz the reverse; with nothing else changed. (R211, R212.) -/
def Obligations.ConditionalMoves : Prop :=
  ∀ (a b c d : BitVec 5) (s : State),
    decode (regWord 0x0B a b c d) = .instr (.movn a b c) ∧
    RegResult (.movn a b c) s b (if (s.readReg c).toNat ≠ 0 then (s.readReg a).toNat else (s.readReg b).toNat) ∧
    decode (regWord 0x0A a b c d) = .instr (.movz a b c) ∧
    RegResult (.movz a b c) s b (if (s.readReg c).toNat = 0 then (s.readReg a).toNat else (s.readReg b).toNat)

/-- For every word with op 0 and func 0x2A (slt), or op 0x0A (slti), it decodes to that instruction with its
fields, and exec answers, in every state, x[B] = 1 where s32(x[A]) < s32(x[C]) (slt) or s32(x[A]) is less
than the immediate read as a signed 16-bit number (slti), else 0, with nothing else changed. (R214, R216.) -/
def Obligations.SetOnSignedLessThan : Prop :=
  ∀ (a b c d : BitVec 5) (imm : BitVec 16) (s : State),
    decode (regWord 0x2A a b c d) = .instr (.slt a b c) ∧
    RegResult (.slt a b c) s b (if s32 (s.readReg a) < s32 (s.readReg c) then 1 else 0) ∧
    decode (immWord 0x0A a b imm) = .instr (.slti a b imm) ∧
    RegResult (.slti a b imm) s b
      (if s32 (s.readReg a) < (if imm.toNat < 2 ^ 15 then (imm.toNat : Int) else imm.toNat - 2 ^ 16) then 1 else 0)

/-- For every word with op 0 and func 0x2B (sltu), or op 0x0B (sltiu), it decodes to that instruction with its
fields, and exec answers, in every state, x[B] = 1 where x[A] < x[C] (sltu) or x[A] is less than the zero-
extended immediate (sltiu), unsigned, else 0, with nothing else changed. (R215, R217.) -/
def Obligations.SetOnUnsignedLessThan : Prop :=
  ∀ (a b c d : BitVec 5) (imm : BitVec 16) (s : State),
    decode (regWord 0x2B a b c d) = .instr (.sltu a b c) ∧
    RegResult (.sltu a b c) s b (if (s.readReg a).toNat < (s.readReg c).toNat then 1 else 0) ∧
    decode (immWord 0x0B a b imm) = .instr (.sltiu a b imm) ∧
    RegResult (.sltiu a b imm) s b (if (s.readReg a).toNat < imm.toNat then 1 else 0)

/-- For every word with op 0 and func 0x38 (seb) or 0x39 (seh), whatever fields C and D hold, it decodes to that
instruction with fields A and B, and exec answers, in every state, x[B] = x[A] mod 256 (seb) or mod 65536
(seh), with nothing else changed. (R230, R231.) -/
def Obligations.SebAndSehMask : Prop :=
  ∀ (a b c d : BitVec 5) (s : State),
    decode (regWord 0x38 a b c d) = .instr (.seb a b) ∧
    RegResult (.seb a b) s b ((s.readReg a).toNat % 2 ^ 8) ∧
    decode (regWord 0x39 a b c d) = .instr (.seh a b) ∧
    RegResult (.seh a b) s b ((s.readReg a).toNat % 2 ^ 16)

/-- For every word with op 0 and func 0x3B (clo) or 0x3C (clz), whatever fields C and D hold, it decodes to that
instruction with fields A and B, and exec answers, in every state, x[B] = the number of the 32 positions of
x[A] whose bit is 1 (clo) or 0 (clz), with nothing else changed. (R232, R233.) -/
def Obligations.CloAndClzCountAllBits : Prop :=
  ∀ (a b c d : BitVec 5) (s : State),
    decode (regWord 0x3B a b c d) = .instr (.clo a b) ∧
    RegResult (.clo a b) s b (Finset.univ.filter fun k : Fin 32 => (s.readReg a).getLsbD k = true).card ∧
    decode (regWord 0x3C a b c d) = .instr (.clz a b) ∧
    RegResult (.clz a b) s b (Finset.univ.filter fun k : Fin 32 => (s.readReg a).getLsbD k = false).card

/-- For every word with op 0 and func 0x3D it decodes to ext with fields A and B, pos = D and size = C, and exec
answers, in every state, x[B] whose bit k is x[A]'s bit k where pos <= k < pos + size and 0 elsewhere, with
nothing else changed. (R234.) -/
def Obligations.ExtKeepsAFieldInPlace : Prop :=
  ∀ (a b c d : BitVec 5) (s : State),
    decode (regWord 0x3D a b c d) = .instr (.ext a b d c) ∧
    RegBits (.ext a b d c) s b
      (fun k => decide (d.toNat ≤ k ∧ k < d.toNat + c.toNat) && (s.readReg a).getLsbD k)

/-- For every word with op 0 and func 0x3E it decodes to ins with fields A and B, pos = D and size = C, and exec
answers, in every state, x[B] whose bit k is the old x[B]'s bit k ORed, where pos <= k < pos + size, with
bit k - pos of x[A], with nothing else changed. (R235.) -/
def Obligations.InsOrsAFieldIn : Prop :=
  ∀ (a b c d : BitVec 5) (s : State),
    decode (regWord 0x3E a b c d) = .instr (.ins a b d c) ∧
    RegBits (.ins a b d c) s b
      (fun k => (s.readReg b).getLsbD k ||
        (decide (d.toNat ≤ k ∧ k < d.toNat + c.toNat) && (s.readReg a).getLsbD (k - d.toNat)))

/-- For every word with op 0 and func 0x3A, whatever fields C and D hold, it decodes to wsbh with fields A and
B, and exec answers, in every state, x[B] = x[A][23:16] ++ x[A][31:24] ++ x[A][7:0] ++ x[A][15:8] with
nothing else changed, and a second wsbh of B into B gives the old x[A]. (R236.) -/
def Obligations.WsbhSwapsBytesInHalves : Prop :=
  ∀ (a b c d : BitVec 5) (s : State),
    decode (regWord 0x3A a b c d) = .instr (.wsbh a b) ∧
    RegResult (.wsbh a b) s b
      ((s.readReg a).toNat / 2 ^ 16 % 2 ^ 8 * 2 ^ 24 + (s.readReg a).toNat / 2 ^ 24 * 2 ^ 16 +
        (s.readReg a).toNat % 2 ^ 8 * 2 ^ 8 + (s.readReg a).toNat / 2 ^ 8 % 2 ^ 8) ∧
    ∃ t u, exec (.wsbh a b) s = .next t ∧ exec (.wsbh b b) t = .next u ∧ u.readReg b = s.readReg a

/-- For every word with op 0x0F, whatever field A holds, it decodes to lui with field B and the immediate, and
exec answers, in every state, x[B] = imm * 2^16 with nothing else changed. (R237.) -/
def Obligations.LuiLoadsTheUpperHalf : Prop :=
  ∀ (a b : BitVec 5) (imm : BitVec 16) (s : State),
    decode (immWord 0x0F a b imm) = .instr (.lui b imm) ∧
    RegResult (.lui b imm) s b (imm.toNat * 2 ^ 16)
end

