-- ==== Sys2Proof/Laws/Decode.lean ====
section
/-! SUPPORT. The fields of a word built from its fields, words as numbers, and the opcode tables read
backwards. -/

namespace Sys2Proof.Laws

open Sys2Proof Config

/-! ### The fields of a built word (R83 to R85, R98) -/

section Fields

variable (func op : BitVec 6) (a b c d : BitVec 5) (imm : Imm) (target : Target)

/-- A register-form word as the number its fields make (R83). -/
theorem wordR_toNat :
    (wordR func a b c d).toNat =
      a.toNat * 2 ^ 21 + b.toNat * 2 ^ 16 + c.toNat * 2 ^ 11 + d.toNat * 2 ^ 6 + func.toNat := by
  have h0 : (0 : BitVec 6).toNat = 0 := rfl
  have hb := b.isLt; have hc := c.isLt; have hd := d.isLt; have hf := func.isLt
  simp only [wordR, BitVec.toNat_append]
  rw [← Nat.shiftLeft_add_eq_or_of_lt hf, ← Nat.shiftLeft_add_eq_or_of_lt hd,
    ← Nat.shiftLeft_add_eq_or_of_lt hc, ← Nat.shiftLeft_add_eq_or_of_lt hb,
    ← Nat.shiftLeft_add_eq_or_of_lt a.isLt]
  simp only [Nat.shiftLeft_eq]
  omega

/-- An immediate-form word as the number its fields make (R85). -/
theorem wordI_toNat :
    (wordI op a b imm).toNat = op.toNat * 2 ^ 26 + a.toNat * 2 ^ 21 + b.toNat * 2 ^ 16 + imm.toNat := by
  simp only [wordI, BitVec.toNat_append]
  rw [← Nat.shiftLeft_add_eq_or_of_lt imm.isLt, ← Nat.shiftLeft_add_eq_or_of_lt b.isLt,
    ← Nat.shiftLeft_add_eq_or_of_lt a.isLt]
  simp only [Nat.shiftLeft_eq]
  omega

/-- A jump-form word as the number its fields make (R84). -/
theorem wordJ_toNat : (wordJ op target).toNat = op.toNat * 2 ^ 26 + target.toNat := by
  simp only [wordJ, BitVec.toNat_append]
  rw [← Nat.shiftLeft_add_eq_or_of_lt target.isLt, Nat.shiftLeft_eq]

@[simp] theorem opField_wordR : opField (wordR func a b c d) = 0 := by
  have h0 : (0 : BitVec 6).toNat = 0 := rfl
  have := func.isLt; have := a.isLt; have := b.isLt; have := c.isLt; have := d.isLt
  apply BitVec.eq_of_toNat_eq
  simp only [opField, BitVec.extractLsb'_toNat, wordR_toNat, Nat.shiftRight_eq_div_pow]
  omega

@[simp] theorem fieldA_wordR : fieldA (wordR func a b c d) = a := by
  have := func.isLt; have := a.isLt; have := b.isLt; have := c.isLt; have := d.isLt
  apply BitVec.eq_of_toNat_eq
  simp only [fieldA, BitVec.extractLsb'_toNat, wordR_toNat, Nat.shiftRight_eq_div_pow]
  omega

@[simp] theorem fieldB_wordR : fieldB (wordR func a b c d) = b := by
  have := func.isLt; have := a.isLt; have := b.isLt; have := c.isLt; have := d.isLt
  apply BitVec.eq_of_toNat_eq
  simp only [fieldB, BitVec.extractLsb'_toNat, wordR_toNat, Nat.shiftRight_eq_div_pow]
  omega

@[simp] theorem fieldC_wordR : fieldC (wordR func a b c d) = c := by
  have := func.isLt; have := a.isLt; have := b.isLt; have := c.isLt; have := d.isLt
  apply BitVec.eq_of_toNat_eq
  simp only [fieldC, BitVec.extractLsb'_toNat, wordR_toNat, Nat.shiftRight_eq_div_pow]
  omega

@[simp] theorem fieldD_wordR : fieldD (wordR func a b c d) = d := by
  have := func.isLt; have := a.isLt; have := b.isLt; have := c.isLt; have := d.isLt
  apply BitVec.eq_of_toNat_eq
  simp only [fieldD, BitVec.extractLsb'_toNat, wordR_toNat, Nat.shiftRight_eq_div_pow]
  omega

@[simp] theorem funcField_wordR : funcField (wordR func a b c d) = func := by
  have := func.isLt; have := a.isLt; have := b.isLt; have := c.isLt; have := d.isLt
  apply BitVec.eq_of_toNat_eq
  simp only [funcField, BitVec.extractLsb'_toNat, wordR_toNat, Nat.shiftRight_eq_div_pow]
  omega

@[simp] theorem opField_wordI : opField (wordI op a b imm) = op := by
  have := op.isLt; have := a.isLt; have := b.isLt; have := imm.isLt
  apply BitVec.eq_of_toNat_eq
  simp only [opField, BitVec.extractLsb'_toNat, wordI_toNat, Nat.shiftRight_eq_div_pow]
  omega

@[simp] theorem fieldA_wordI : fieldA (wordI op a b imm) = a := by
  have := op.isLt; have := a.isLt; have := b.isLt; have := imm.isLt
  apply BitVec.eq_of_toNat_eq
  simp only [fieldA, BitVec.extractLsb'_toNat, wordI_toNat, Nat.shiftRight_eq_div_pow]
  omega

@[simp] theorem fieldB_wordI : fieldB (wordI op a b imm) = b := by
  have := op.isLt; have := a.isLt; have := b.isLt; have := imm.isLt
  apply BitVec.eq_of_toNat_eq
  simp only [fieldB, BitVec.extractLsb'_toNat, wordI_toNat, Nat.shiftRight_eq_div_pow]
  omega

@[simp] theorem immField_wordI : immField 0 (wordI op a b imm) = imm := by
  have := op.isLt; have := a.isLt; have := b.isLt; have := imm.isLt
  apply BitVec.eq_of_toNat_eq
  simp only [immField, BitVec.extractLsb'_toNat, wordI_toNat, Nat.shiftRight_eq_div_pow]
  omega

@[simp] theorem opField_wordJ : opField (wordJ op target) = op := by
  have := op.isLt; have := target.isLt
  apply BitVec.eq_of_toNat_eq
  simp only [opField, BitVec.extractLsb'_toNat, wordJ_toNat, Nat.shiftRight_eq_div_pow]
  omega

@[simp] theorem targetField_wordJ : targetField (wordJ op target) = target := by
  have := op.isLt; have := target.isLt
  apply BitVec.eq_of_toNat_eq
  simp only [targetField, BitVec.extractLsb'_toNat, wordJ_toNat, Nat.shiftRight_eq_div_pow]
  omega

end Fields

/-! ### The opcode tables read backwards (R44, R97) -/

theorem mem_regOps (o : RegOp) : o ∈ RegOp.all := by cases o <;> decide

theorem mem_immOps (o : ImmOp) : o ∈ ImmOp.all := by cases o <;> decide

/-- What a lookup in the register-form table answers has the code looked up. -/
theorem functCode_of_regOpOf {p : Params} {f : BitVec 6} {o : RegOp} (h : regOpOf p f = some o) :
    p.functCode o = f := by
  simpa using List.find?_some h

theorem immOpcode_of_immOpOf {p : Params} {f : BitVec 6} {o : ImmOp} (h : immOpOf p f = some o) :
    p.immOpcode o = f := by
  simpa using List.find?_some h

/-- A lookup in the register-form table finds nothing exactly where no operation has the code. -/
theorem regOpOf_eq_none {p : Params} {f : BitVec 6} : regOpOf p f = none ↔ ∀ o, p.functCode o ≠ f := by
  simp [regOpOf, List.find?_eq_none, mem_regOps]

theorem immOpOf_eq_none {p : Params} {f : BitVec 6} : immOpOf p f = none ↔ ∀ o, p.immOpcode o ≠ f := by
  simp [immOpOf, List.find?_eq_none, mem_immOps]

/-- With distinct codes the register-form table gives back the operation of a code. -/
theorem regOpOf_functCode {p : Params} (hp : p.functCodesDistinct = true) (o : RegOp) :
    regOpOf p (p.functCode o) = some o := by
  have hinj := List.inj_on_of_nodup_map (of_decide_eq_true hp)
  cases h : regOpOf p (p.functCode o) with
  | none => exact absurd rfl (regOpOf_eq_none.mp h o)
  | some o' => rw [hinj (mem_regOps o') (mem_regOps o) (functCode_of_regOpOf h)]

/-- With distinct opcodes the immediate-form table gives back the operation of an opcode. -/
theorem immOpOf_immOpcode {p : Params} (hp : p.immOpcodesDistinct = true) (o : ImmOp) :
    immOpOf p (p.immOpcode o) = some o := by
  have hinj := List.inj_on_of_nodup_map (of_decide_eq_true hp)
  cases h : immOpOf p (p.immOpcode o) with
  | none => exact absurd rfl (immOpOf_eq_none.mp h o)
  | some o' => rw [hinj (mem_immOps o') (mem_immOps o) (immOpcode_of_immOpOf h)]

/-- The default parameters are well-formed. -/
theorem wellFormed_defaultParams : defaultParams.wellFormed = true := by decide

theorem functCodesDistinct_defaultParams : defaultParams.functCodesDistinct = true := by decide

theorem immOpcodesDistinct_defaultParams : defaultParams.immOpcodesDistinct = true := by decide

/-! ### Decoding by format (R82) -/

theorem decodeIn_of_reg {p : Params} {w : Word} (h : opField w = 0) : decodeIn p w = decodeReg p w := by
  simp [decodeIn, h]

theorem decodeIn_of_jump {p : Params} {w : Word} (h1 : 1 ≤ (opField w).toNat) (h7 : (opField w).toNat ≤ 7) :
    decodeIn p w = decodeJump p w := by
  simp [decodeIn, h7, show (opField w).toNat ≠ 0 by omega]

theorem decodeIn_of_imm {p : Params} {w : Word} (h8 : 8 ≤ (opField w).toNat) (h43 : (opField w).toNat ≤ 43) :
    decodeIn p w = decodeImm p w := by
  simp [decodeIn, h43, show (opField w).toNat ≠ 0 by omega, show ¬ (opField w).toNat ≤ 7 by omega]

theorem decodeIn_of_beyond {p : Params} {w : Word} (h : 44 ≤ (opField w).toNat) :
    decodeIn p w = .invalid .opcodeOutOfRange := by
  simp [decodeIn, show (opField w).toNat ≠ 0 by omega, show ¬ (opField w).toNat ≤ 7 by omega,
    show ¬ (opField w).toNat ≤ 43 by omega]

/-- A register-form word decodes to its operation with its four fields. -/
theorem decodeIn_wordR {p : Params} (hp : p.functCodesDistinct = true) (o : RegOp) (a b c d : BitVec 5) :
    decodeIn p (wordR (p.functCode o) a b c d) = .instr (regInstr p.extInsFields o a b c d) := by
  rw [decodeIn_of_reg (by simp)]
  simp [decodeReg, regOpOf_functCode hp]

theorem immOpcode_range {p : Params} (hp : p.immOpcodesInRange = true) (o : ImmOp) :
    8 ≤ (p.immOpcode o).toNat ∧ (p.immOpcode o).toNat ≤ 43 := by
  simpa using List.all_eq_true.mp hp o (mem_immOps o)

/-- An immediate-form word decodes to its operation with its two fields and, where `IMM_LSB = 0`, its
immediate. -/
theorem decodeIn_wordI {p : Params} (hp : p.immOpcodesDistinct = true) (hr : p.immOpcodesInRange = true)
    (hl : p.immLsb = 0) (o : ImmOp) (a b : BitVec 5) (imm : Imm) :
    decodeIn p (wordI (p.immOpcode o) a b imm) = .instr (immInstr o a b imm) := by
  obtain ⟨h8, h43⟩ := immOpcode_range hr o
  rw [decodeIn_of_imm (by simpa using h8) (by simpa using h43)]
  simp [decodeImm, immOpOf_immOpcode hp, hl]

/-- With an empty jump table no word decodes to a jump (R93). -/
theorem decodeIn_ne_jump {p : Params} (hp : ∀ op, p.jumpTable op = none) (w : Word) (op : BitVec 6)
    (t : Target) : decodeIn p w ≠ .jump op t := by
  simp only [decodeIn, decodeReg, decodeJump, decodeImm, hp]
  split_ifs <;> (try split) <;> simp

theorem decode_ne_jump (w : Word) (op : BitVec 6) (t : Target) : decode w ≠ .jump op t :=
  decodeIn_ne_jump (fun _ => rfl) w op t

/-! ### `ext` and `ins` (R90) -/

@[simp] theorem posField_fields (x : ExtInsFields) (pos size : Amount) :
    posField x (fieldCOf x pos size) (fieldDOf x pos size) = pos := by cases x <;> rfl

@[simp] theorem sizeField_fields (x : ExtInsFields) (pos size : Amount) :
    sizeField x (fieldCOf x pos size) (fieldDOf x pos size) = size := by cases x <;> rfl

end Sys2Proof.Laws
end

