-- ==== Sys2Proof/Laws/Memory.lean ====
section
/-! SUPPORT. The laws of the bus: what a byte or word reads after a write, and the canonical form, kept by
every operation that writes. -/

namespace Sys2Proof.Laws

open Sys2Proof.Machine

/-! ### Bytes -/

theorem wf_cons {k : Nat} {v : Byte} {m : Memory} :
    Memory.wf ((k, v) :: m) = true ↔ v ≠ 0 ∧ (∀ c ∈ m, k < c.1) ∧ Memory.wf m = true := by
  simp [Memory.wf, and_assoc]

/-- A byte below every listed one reads as 0. -/
theorem readByte_of_below {m : Memory} {a : Nat} (h : ∀ c ∈ m, a < c.1) : m.readByte a = 0 := by
  induction m with
  | nil => rfl
  | cons c m ih =>
    obtain ⟨k, v⟩ := c
    have hk := h (k, v) (by simp)
    have hne : k ≠ a := by intro e; simp [e] at hk
    simp only [Memory.readByte, hne, if_false]
    exact ih fun c hc => h c (by simp [hc])

/-- A write of one byte leaves every other byte alone, whatever the memory's form. -/
theorem readByte_writeByte_of_ne (m : Memory) {a b : Nat} (h : b ≠ a) (v : Byte) :
    (m.writeByte a v).readByte b = m.readByte b := by
  have h' : ¬ a = b := fun e => h e.symm
  induction m with
  | nil => by_cases hv : v = 0#8 <;> simp [Memory.writeByte, Memory.readByte, hv, h']
  | cons c m ih =>
    obtain ⟨k, w⟩ := c
    simp only [Memory.writeByte]
    split_ifs with h1 h2 h3 h4 <;> simp_all [Memory.readByte]

/-- The byte written is the byte read, in a canonical memory. -/
theorem readByte_writeByte_self {m : Memory} (hm : m.wf = true) (a : Nat) (v : Byte) :
    (m.writeByte a v).readByte a = v := by
  induction m with
  | nil => by_cases hv : v = 0#8 <;> simp [Memory.writeByte, Memory.readByte, hv]
  | cons c m ih =>
    obtain ⟨k, w⟩ := c
    obtain ⟨hw, hlt, hm'⟩ := wf_cons.mp hm
    simp only [Memory.writeByte]
    split_ifs with h1 h2 h3 h4
    · subst h2
      refine readByte_of_below fun c hc => ?_
      rcases List.mem_cons.mp hc with rfl | hc
      · exact h1
      · exact lt_trans h1 (hlt c hc)
    · simp [Memory.readByte]
    · subst h3 h4
      exact readByte_of_below hlt
    · simp [Memory.readByte]
    · have hka : k ≠ a := fun e => h3 e.symm
      simp only [Memory.readByte, hka, if_false]
      exact ih hm'

/-- What a byte reads after a write of one byte, in a canonical memory. -/
theorem readByte_writeByte {m : Memory} (hm : m.wf = true) (a b : Nat) (v : Byte) :
    (m.writeByte a v).readByte b = if b = a then v else m.readByte b := by
  split_ifs with h
  · subst h; exact readByte_writeByte_self hm _ _
  · exact readByte_writeByte_of_ne m h v

/-- The addresses a write of one byte can list. -/
theorem mem_writeByte {m : Memory} {a : Nat} {v : Byte} {c : Host.Cell} (hc : c ∈ m.writeByte a v) :
    c = (a, v) ∨ c ∈ m := by
  induction m with
  | nil =>
    by_cases hv : v = 0#8 <;> simp [Memory.writeByte, hv] at hc
    exact .inl hc
  | cons d m ih =>
    obtain ⟨k, w⟩ := d
    simp only [Memory.writeByte] at hc
    split_ifs at hc with h1 h2 h3 h4
    · exact .inr hc
    · simpa using hc
    · exact .inr (by simp [hc])
    · rcases List.mem_cons.mp hc with rfl | hc
      · exact .inl rfl
      · exact .inr (by simp [hc])
    · rcases List.mem_cons.mp hc with rfl | hc
      · exact .inr (by simp)
      · rcases ih hc with h | h
        · exact .inl h
        · exact .inr (by simp [h])

/-- A write of one byte keeps the canonical form. -/
theorem wf_writeByte {m : Memory} (hm : m.wf = true) (a : Nat) (v : Byte) : (m.writeByte a v).wf = true := by
  induction m with
  | nil => by_cases hv : v = 0#8 <;> simp [Memory.writeByte, Memory.wf, hv]
  | cons c m ih =>
    obtain ⟨k, w⟩ := c
    obtain ⟨hw, hlt, hm'⟩ := wf_cons.mp hm
    simp only [Memory.writeByte]
    split_ifs with h1 h2 h3 h4
    · exact hm
    · refine wf_cons.mpr ⟨h2, fun c hc => ?_, hm⟩
      rcases List.mem_cons.mp hc with rfl | hc
      · exact h1
      · exact lt_trans h1 (hlt c hc)
    · exact hm'
    · exact wf_cons.mpr ⟨h4, h3 ▸ hlt, hm'⟩
    · refine wf_cons.mpr ⟨hw, fun c hc => ?_, ih hm'⟩
      rcases mem_writeByte hc with rfl | hc
      · simp only; omega
      · exact hlt c hc

/-! ### Words -/

/-- A write of one word keeps the canonical form. -/
theorem wf_writeWord {m : Memory} (hm : m.wf = true) (k : Nat) (v : Word) : (m.writeWord k v).wf = true :=
  wf_writeByte (wf_writeByte (wf_writeByte (wf_writeByte hm _ _) _ _) _ _) _ _

/-- What a byte reads after a write of one word, outside that word. -/
theorem readByte_writeWord_of_outside (m : Memory) (k : Nat) (v : Word) {a : Nat}
    (h : a < 4 * k ∨ 4 * k + 3 < a) : (m.writeWord k v).readByte a = m.readByte a := by
  simp only [Memory.writeWord]
  rw [readByte_writeByte_of_ne _ (by omega), readByte_writeByte_of_ne _ (by omega),
    readByte_writeByte_of_ne _ (by omega), readByte_writeByte_of_ne _ (by omega)]

/-- A write of one word leaves every other word alone (R64). -/
theorem readWord_writeWord_of_ne (m : Memory) {k j : Nat} (h : j ≠ k) (v : Word) :
    (m.writeWord k v).readWord j = m.readWord j := by
  simp only [Memory.readWord]
  rw [readByte_writeWord_of_outside _ _ _ (by omega), readByte_writeWord_of_outside _ _ _ (by omega),
    readByte_writeWord_of_outside _ _ _ (by omega), readByte_writeWord_of_outside _ _ _ (by omega)]

/-- The four bytes of a word, joined again. -/
theorem append_bytes (v : Word) :
    (v.extractLsb' 24 8 ++ v.extractLsb' 16 8 ++ v.extractLsb' 8 8 ++ v.extractLsb' 0 8 : Word) = v := by
  ext i hi
  simp only [BitVec.getElem_append, BitVec.getElem_extractLsb']
  rw [← BitVec.getLsbD_eq_getElem (x := v)]
  split_ifs <;> congr 1 <;> omega

/-- The word written is the word read, in a canonical memory (R64). -/
theorem readWord_writeWord_self {m : Memory} (hm : m.wf = true) (k : Nat) (v : Word) :
    (m.writeWord k v).readWord k = v := by
  have h1 := wf_writeByte hm (4 * k) (v.extractLsb' 0 8)
  have h2 := wf_writeByte h1 (4 * k + 1) (v.extractLsb' 8 8)
  have h3 := wf_writeByte h2 (4 * k + 2) (v.extractLsb' 16 8)
  simp only [Memory.readWord, Memory.writeWord]
  simp only [readByte_writeByte h3, readByte_writeByte h2, readByte_writeByte h1, readByte_writeByte hm]
  simpa using append_bytes v

/-- What a word reads after a write of one word, in a canonical memory. -/
theorem readWord_writeWord {m : Memory} (hm : m.wf = true) (k j : Nat) (v : Word) :
    (m.writeWord k v).readWord j = if j = k then v else m.readWord j := by
  split_ifs with h
  · subst h; exact readWord_writeWord_self hm _ _
  · exact readWord_writeWord_of_ne m h v

/-- A write inside the bus lists no byte outside it. -/
theorem inBus_writeWord {words : Nat} {m : Memory} (hm : m.inBus words = true) {k : Nat} (hk : k < words)
    (v : Word) : (m.writeWord k v).inBus words = true := by
  simp only [Memory.inBus, List.all_eq_true, decide_eq_true_eq] at *
  intro c hc
  simp only [Memory.writeWord] at hc
  rcases mem_writeByte hc with rfl | hc
  · simp only; omega
  rcases mem_writeByte hc with rfl | hc
  · simp only; omega
  rcases mem_writeByte hc with rfl | hc
  · simp only; omega
  rcases mem_writeByte hc with rfl | hc
  · simp only; omega
  · exact hm c hc

/-- Nothing listed: every word reads as 0 (R60, R63). -/
@[simp] theorem readWord_nil (k : Nat) : Memory.readWord [] k = 0 := by
  simp [Memory.readWord, Memory.readByte]

/-! ### The bus's reads and writes -/

theorem validAddr_iff {words : Nat} {addr : Word} : validAddr words addr = true ↔ addr.toNat < 4 * words := by
  simp [validAddr]

/-- All a bus read can do (R63). -/
theorem busRead_eq (words : Nat) (m : Memory) (addr : Word) :
    busRead words m addr =
      if addr.toNat < 4 * words then some (m.readWord (addr.toNat / 4)) else none := by
  simp [busRead, validAddr]

/-- All a bus write can do (R64). -/
theorem busWrite_eq (words : Nat) (m : Memory) (addr v : Word) :
    busWrite words m addr v =
      if addr.toNat < 4 * words then some (m.writeWord (addr.toNat / 4) v) else none := by
  simp [busWrite, validAddr]

theorem busRead_eq_some {words : Nat} {m : Memory} {addr v : Word} :
    busRead words m addr = some v ↔ addr.toNat < 4 * words ∧ m.readWord (addr.toNat / 4) = v := by
  rw [busRead_eq]; split_ifs with h <;> simp [h]

theorem busRead_eq_none {words : Nat} {m : Memory} {addr : Word} :
    busRead words m addr = none ↔ 4 * words ≤ addr.toNat := by
  rw [busRead_eq]; split_ifs with h <;> simp <;> omega

theorem busWrite_eq_some {words : Nat} {m m' : Memory} {addr v : Word} :
    busWrite words m addr v = some m' ↔ addr.toNat < 4 * words ∧ m.writeWord (addr.toNat / 4) v = m' := by
  rw [busWrite_eq]; split_ifs with h <;> simp [h]

/-- A bus write keeps the canonical form. -/
theorem wf_busWrite {words : Nat} {m m' : Memory} {addr v : Word} (hm : m.wf = true)
    (h : busWrite words m addr v = some m') : m'.wf = true := by
  obtain ⟨-, rfl⟩ := busWrite_eq_some.mp h
  exact wf_writeWord hm _ _

/-- A bus write lists no byte outside the bus. -/
theorem inBus_busWrite {words : Nat} {m m' : Memory} {addr v : Word} (hm : m.inBus words = true)
    (h : busWrite words m addr v = some m') : m'.inBus words = true := by
  obtain ⟨hlt, rfl⟩ := busWrite_eq_some.mp h
  exact inBus_writeWord hm (by omega) _

/-- Placing a word for the next fetch keeps the canonical form. -/
theorem wf_placeWord (p : Config.Params) {s : State} (hm : s.mem.wf = true) (w : Word) :
    (s.placeWord p w).mem.wf = true := by
  simp only [State.placeWord]
  split
  · exact wf_busWrite hm (by assumption)
  · exact hm

/-- The reset memory is canonical and lists no byte outside the bus. -/
theorem wf_resetWith (n : Word) : (State.resetWith n).mem.wf = true := rfl

theorem inBus_resetWith (words : Nat) (n : Word) : (State.resetWith n).mem.inBus words = true := rfl

end Sys2Proof.Laws
end

