-- ==== Sys2Proof/Laws/State.lean ====
section
/-! SUPPORT. What each update of the state does to each field, the register file's laws, and the
accumulator read back as one value. -/

namespace Sys2Proof.Laws

open Sys2Proof.Machine

variable (s : State)

/-! ### writeReg -/

@[simp] theorem writeReg_regs (i : RegIdx) (v : Word) : (s.writeReg i v).regs = s.regs.set i.toNat v i.isLt := rfl
@[simp] theorem writeReg_pc (i : RegIdx) (v : Word) : (s.writeReg i v).pc = s.pc := rfl
@[simp] theorem writeReg_accHi (i : RegIdx) (v : Word) : (s.writeReg i v).accHi = s.accHi := rfl
@[simp] theorem writeReg_accLo (i : RegIdx) (v : Word) : (s.writeReg i v).accLo = s.accLo := rfl
@[simp] theorem writeReg_pb (i : RegIdx) (v : Word) : (s.writeReg i v).pb = s.pb := rfl
@[simp] theorem writeReg_reports (i : RegIdx) (v : Word) : (s.writeReg i v).reports = s.reports := rfl
@[simp] theorem writeReg_halted (i : RegIdx) (v : Word) : (s.writeReg i v).halted = s.halted := rfl
@[simp] theorem writeReg_mem (i : RegIdx) (v : Word) : (s.writeReg i v).mem = s.mem := rfl
@[simp] theorem writeReg_draws (i : RegIdx) (v : Word) : (s.writeReg i v).draws = s.draws := rfl

/-! ### setAcc64 -/

@[simp] theorem setAcc64_regs (w : DWord) : (s.setAcc64 w).regs = s.regs := rfl
@[simp] theorem setAcc64_pc (w : DWord) : (s.setAcc64 w).pc = s.pc := rfl
@[simp] theorem setAcc64_accHi (w : DWord) : (s.setAcc64 w).accHi = w.extractLsb' 32 32 := rfl
@[simp] theorem setAcc64_accLo (w : DWord) : (s.setAcc64 w).accLo = w.extractLsb' 0 32 := rfl
@[simp] theorem setAcc64_pb (w : DWord) : (s.setAcc64 w).pb = s.pb := rfl
@[simp] theorem setAcc64_reports (w : DWord) : (s.setAcc64 w).reports = s.reports := rfl
@[simp] theorem setAcc64_halted (w : DWord) : (s.setAcc64 w).halted = s.halted := rfl
@[simp] theorem setAcc64_mem (w : DWord) : (s.setAcc64 w).mem = s.mem := rfl
@[simp] theorem setAcc64_draws (w : DWord) : (s.setAcc64 w).draws = s.draws := rfl

/-! ### afterDraw -/

@[simp] theorem afterDraw_regs : (s.afterDraw).regs = s.regs := rfl
@[simp] theorem afterDraw_pc : (s.afterDraw).pc = s.pc := rfl
@[simp] theorem afterDraw_accHi : (s.afterDraw).accHi = s.accHi := rfl
@[simp] theorem afterDraw_accLo : (s.afterDraw).accLo = s.accLo := rfl
@[simp] theorem afterDraw_pb : (s.afterDraw).pb = s.pb := rfl
@[simp] theorem afterDraw_reports : (s.afterDraw).reports = s.reports := rfl
@[simp] theorem afterDraw_halted : (s.afterDraw).halted = s.halted := rfl
@[simp] theorem afterDraw_mem : (s.afterDraw).mem = s.mem := rfl
@[simp] theorem afterDraw_draws : (s.afterDraw).draws = s.draws + 1 := rfl

/-! ### drawAcc -/

@[simp] theorem drawAcc_regs : (s.drawAcc).regs = s.regs := rfl
@[simp] theorem drawAcc_pc : (s.drawAcc).pc = s.pc := rfl
@[simp] theorem drawAcc_accHi : (s.drawAcc).accHi = Config.draw32 s.draws := rfl
@[simp] theorem drawAcc_accLo : (s.drawAcc).accLo = Config.draw32 (s.draws + 1) := rfl
@[simp] theorem drawAcc_pb : (s.drawAcc).pb = s.pb := rfl
@[simp] theorem drawAcc_reports : (s.drawAcc).reports = s.reports := rfl
@[simp] theorem drawAcc_halted : (s.drawAcc).halted = s.halted := rfl
@[simp] theorem drawAcc_mem : (s.drawAcc).mem = s.mem := rfl
@[simp] theorem drawAcc_draws : (s.drawAcc).draws = s.draws + 2 := rfl

/-! ### advancePc -/

@[simp] theorem advancePc_regs : (s.advancePc).regs = s.regs := rfl
@[simp] theorem advancePc_pc : (s.advancePc).pc = s.pc + 4 := rfl
@[simp] theorem advancePc_accHi : (s.advancePc).accHi = s.accHi := rfl
@[simp] theorem advancePc_accLo : (s.advancePc).accLo = s.accLo := rfl
@[simp] theorem advancePc_pb : (s.advancePc).pb = s.pb := rfl
@[simp] theorem advancePc_reports : (s.advancePc).reports = s.reports := rfl
@[simp] theorem advancePc_halted : (s.advancePc).halted = s.halted := rfl
@[simp] theorem advancePc_mem : (s.advancePc).mem = s.mem := rfl
@[simp] theorem advancePc_draws : (s.advancePc).draws = s.draws := rfl

/-! ### report -/

@[simp] theorem report_regs (kind : InvalidKind) (w : Word) : (s.report kind w).regs = s.regs := rfl
@[simp] theorem report_pc (kind : InvalidKind) (w : Word) : (s.report kind w).pc = s.pc := rfl
@[simp] theorem report_accHi (kind : InvalidKind) (w : Word) : (s.report kind w).accHi = s.accHi := rfl
@[simp] theorem report_accLo (kind : InvalidKind) (w : Word) : (s.report kind w).accLo = s.accLo := rfl
@[simp] theorem report_pb (kind : InvalidKind) (w : Word) : (s.report kind w).pb = s.pb := rfl
@[simp] theorem report_reports (kind : InvalidKind) (w : Word) : (s.report kind w).reports = s.reports ++ [⟨kind, s.pc, w⟩] := rfl
@[simp] theorem report_halted (kind : InvalidKind) (w : Word) : (s.report kind w).halted = s.halted := rfl
@[simp] theorem report_mem (kind : InvalidKind) (w : Word) : (s.report kind w).mem = s.mem := rfl
@[simp] theorem report_draws (kind : InvalidKind) (w : Word) : (s.report kind w).draws = s.draws := rfl

/-! ### haltedByBusRange -/

@[simp] theorem haltedByBusRange_regs : (s.haltedByBusRange).regs = s.regs := rfl
@[simp] theorem haltedByBusRange_pc : (s.haltedByBusRange).pc = s.pc := rfl
@[simp] theorem haltedByBusRange_accHi : (s.haltedByBusRange).accHi = s.accHi := rfl
@[simp] theorem haltedByBusRange_accLo : (s.haltedByBusRange).accLo = s.accLo := rfl
@[simp] theorem haltedByBusRange_pb : (s.haltedByBusRange).pb = s.pb := rfl
@[simp] theorem haltedByBusRange_reports : (s.haltedByBusRange).reports = s.reports := rfl
@[simp] theorem haltedByBusRange_halted : (s.haltedByBusRange).halted = true := rfl
@[simp] theorem haltedByBusRange_mem : (s.haltedByBusRange).mem = s.mem := rfl
@[simp] theorem haltedByBusRange_draws : (s.haltedByBusRange).draws = s.draws := rfl

/-! ### Reading registers -/

theorem readReg_def (i : RegIdx) : s.readReg i = s.regs[i.toNat]'i.isLt := rfl

/-- A state is read through its register file alone. -/
theorem readReg_congr {s t : State} (h : t.regs = s.regs) (i : RegIdx) : t.readReg i = s.readReg i := by
  simp only [State.readReg, h]

/-- What a register reads after a write: the value in the register written, the old value in every other. -/
theorem readReg_writeReg (i j : RegIdx) (v : Word) :
    (s.writeReg i v).readReg j = if j = i then v else s.readReg j := by
  simp only [State.readReg, State.writeReg, Vector.getElem_set, BitVec.toNat_inj, eq_comm]

@[simp] theorem readReg_writeReg_self (i : RegIdx) (v : Word) : (s.writeReg i v).readReg i = v := by
  simp [readReg_writeReg]

theorem readReg_writeReg_of_ne {i j : RegIdx} (h : j ≠ i) (v : Word) :
    (s.writeReg i v).readReg j = s.readReg j := by
  simp [readReg_writeReg, h]

@[simp] theorem readReg_setAcc64 (w : DWord) (j : RegIdx) : (s.setAcc64 w).readReg j = s.readReg j := rfl
@[simp] theorem readReg_afterDraw (j : RegIdx) : s.afterDraw.readReg j = s.readReg j := rfl
@[simp] theorem readReg_drawAcc (j : RegIdx) : s.drawAcc.readReg j = s.readReg j := rfl
@[simp] theorem readReg_advancePc (j : RegIdx) : s.advancePc.readReg j = s.readReg j := rfl
@[simp] theorem readReg_report (k : InvalidKind) (w : Word) (j : RegIdx) :
    (s.report k w).readReg j = s.readReg j := rfl
@[simp] theorem readReg_haltedByBusRange (j : RegIdx) : s.haltedByBusRange.readReg j = s.readReg j := rfl

/-- Two states with the same fields, the registers compared by reading them, are the same state. -/
theorem state_ext {s t : State} (regs : ∀ i, t.readReg i = s.readReg i) (pc : t.pc = s.pc)
    (accHi : t.accHi = s.accHi) (accLo : t.accLo = s.accLo) (pb : t.pb = s.pb)
    (reports : t.reports = s.reports) (halted : t.halted = s.halted) (mem : t.mem = s.mem)
    (draws : t.draws = s.draws) : t = s := by
  cases s; cases t
  simp only [State.mk.injEq] at *
  refine ⟨?_, pc, accHi, accLo, pb, reports, halted, mem, draws⟩
  ext k hk
  have := regs (BitVec.ofNat 5 k)
  simp only [State.readReg, BitVec.toNat_ofNat, Nat.mod_eq_of_lt (show k < 2 ^ 5 by omega)] at this
  simp [this]

/-! ### The accumulator -/

/-- The accumulator's value as a number: `acc_hi * 2^32 + acc_lo` (R9). -/
theorem acc64_toNat : s.acc64.toNat = s.accHi.toNat * 2 ^ 32 + s.accLo.toNat := by
  have := s.accLo.isLt
  simp only [State.acc64, BitVec.toNat_append]
  rw [Nat.shiftLeft_eq, Nat.mul_comm, Nat.two_pow_add_eq_or_of_lt (by omega)]

@[simp] theorem acc64_setAcc64 (w : DWord) : (s.setAcc64 w).acc64 = w := by
  simp only [State.acc64, State.setAcc64]
  ext i hi
  simp only [BitVec.getElem_append, BitVec.getElem_extractLsb']
  split
  · simp [BitVec.getLsbD_eq_getElem hi]
  · have : 32 + (i - 32) = i := by omega
    simp [this, BitVec.getLsbD_eq_getElem hi]

@[simp] theorem acc64_writeReg (i : RegIdx) (v : Word) : (s.writeReg i v).acc64 = s.acc64 := rfl

end Sys2Proof.Laws
end

