-- ==== Sys2Proof/Laws/Engine.lean ====
section
/-! SUPPORT. Everything one step can do (spec R122), said once, and the step at the default parameters as
the step under any parameters. -/

namespace Sys2Proof.Laws

open Sys2Proof.Machine

/-! ### The advance -/

@[simp] theorem advance_next (t : State) : advance (.next t) = .next t.advancePc := rfl
@[simp] theorem advance_fault (r : Fault) : advance (.fault r) = .fault r := rfl
@[simp] theorem advance_refused (r : Refusal) : advance (.refused r) = .refused r := rfl

theorem advance_eq_next {o : Host.Outcome State Fault Refusal} {t : State} (h : advance o = .next t) :
    ∃ u, o = .next u ∧ t = u.advancePc := by
  cases o with
  | next u => exact ⟨u, rfl, by simpa [eq_comm] using h⟩
  | fault r => simp at h
  | refused r => simp at h

/-! ### One step, case by case -/

section Cycle

variable {p : Config.Params} {run : Instr → State → Host.Outcome State Fault Refusal} {s t : State}

/-- A halted CORE has no step (R110). -/
theorem cycle_of_halted (h : s.halted = true) : cycle p run s = .fault (.stuck s) := by
  simp [cycle, h]

/-- A fetch beyond the bus (R111). -/
theorem cycle_of_beyond (h : s.halted = false) (hf : busRead p.memWords s.mem s.pc = none) :
    cycle p run s = .fault (.busRange s.haltedByBusRange) := by
  simp [cycle, h, hf, raiseBusRange]

/-- A step that fetched a word runs what the word decodes to, and advances (R117). -/
theorem cycle_of_fetched {w : Word} (h : s.halted = false) (hf : busRead p.memWords s.mem s.pc = some w) :
    cycle p run s = advance (dispatchWord p run w s) := by
  simp [cycle, h, hf]

theorem dispatchWord_of_instr {w : Word} {i : Instr} (hd : decodeIn p w = .instr i) :
    dispatchWord p run w s = run i s := by
  simp [dispatchWord, hd]

theorem dispatchWord_of_jump {w : Word} {op : BitVec 6} {target : Target} (hd : decodeIn p w = .jump op target) :
    dispatchWord p run w s = .next (runJump p op target s) := by
  simp [dispatchWord, hd]

theorem dispatchWord_of_invalid {w : Word} {k : InvalidKind} (hd : decodeIn p w = .invalid k) :
    dispatchWord p run w s = .next (s.report k w) := by
  simp [dispatchWord, hd]

/-- All a step that answers a next state can have done: run an instruction, run a jump handler, or report an
invalid word, each followed by the advance. -/
theorem cycle_eq_next (h : cycle p run s = .next t) :
    s.halted = false ∧ ∃ w, busRead p.memWords s.mem s.pc = some w ∧
      ((∃ i u, decodeIn p w = .instr i ∧ run i s = .next u ∧ t = u.advancePc) ∨
       (∃ op target, decodeIn p w = .jump op target ∧ t = (runJump p op target s).advancePc) ∨
       (∃ k, decodeIn p w = .invalid k ∧ t = (s.report k w).advancePc)) := by
  cases hh : s.halted with
  | true => simp [cycle_of_halted hh] at h
  | false =>
    refine ⟨rfl, ?_⟩
    cases hf : busRead p.memWords s.mem s.pc with
    | none => simp [cycle_of_beyond hh hf] at h
    | some w =>
      refine ⟨w, rfl, ?_⟩
      rw [cycle_of_fetched hh hf] at h
      cases hd : decodeIn p w with
      | instr i =>
        rw [dispatchWord_of_instr hd] at h
        obtain ⟨u, hu, rfl⟩ := advance_eq_next h
        exact .inl ⟨i, u, rfl, hu, rfl⟩
      | jump op target =>
        rw [dispatchWord_of_jump hd] at h
        exact .inr (.inl ⟨op, target, rfl, by simpa [eq_comm] using h⟩)
      | invalid k =>
        rw [dispatchWord_of_invalid hd] at h
        exact .inr (.inr ⟨k, rfl, by simpa [eq_comm] using h⟩)

end Cycle

/-- All a step at the default parameters that answers a next state can have done; there is no jump (R93). -/
theorem step_eq_next {s t : State} (h : step s = .next t) :
    s.halted = false ∧ ∃ w, busRead 65535 s.mem s.pc = some w ∧
      ((∃ i u, decode w = .instr i ∧ exec i s = .next u ∧ t = u.advancePc) ∨
       (∃ k, decode w = .invalid k ∧ t = (s.report k w).advancePc)) := by
  obtain ⟨hh, w, hf, hi | ⟨op, target, hd, -⟩ | hv⟩ := cycle_eq_next h
  · exact ⟨hh, w, hf, .inl hi⟩
  · exact absurd hd (decode_ne_jump w op target)
  · exact ⟨hh, w, hf, .inr hv⟩

/-! ### Meanings with a case of their own -/

section Cases

variable {s : State} {c : RegIdx}

theorem execDiv_of_ne_zero (a : RegIdx) (h : s.readReg c ≠ 0) :
    execDiv a c s = .next (s.setAcc64 (quotSigned (s.readReg a) (s.readReg c))) :=
  congrArg Host.Outcome.next (if_neg h)

theorem execDiv_of_zero (a : RegIdx) (h : s.readReg c = 0) : execDiv a c s = .next s.drawAcc :=
  congrArg Host.Outcome.next (if_pos h)

theorem execDivu_of_ne_zero (a : RegIdx) (h : s.readReg c ≠ 0) :
    execDivu a c s = .next (s.setAcc64 (quotUnsigned (s.readReg a) (s.readReg c))) :=
  congrArg Host.Outcome.next (if_neg h)

theorem execDivu_of_zero (a : RegIdx) (h : s.readReg c = 0) : execDivu a c s = .next s.drawAcc :=
  congrArg Host.Outcome.next (if_pos h)

theorem execMovn_of_ne_zero (a b : RegIdx) (h : s.readReg c ≠ 0) :
    execMovn a b c s = .next (s.writeReg b (s.readReg a)) :=
  congrArg Host.Outcome.next (if_pos (decide_eq_true h))

theorem execMovn_of_zero (a b : RegIdx) (h : s.readReg c = 0) : execMovn a b c s = .next s :=
  congrArg Host.Outcome.next (if_neg (by simp [isNonzero, h]))

theorem execMovz_of_ne_zero (a b : RegIdx) (h : s.readReg c ≠ 0) : execMovz a b c s = .next s :=
  congrArg Host.Outcome.next (if_pos (decide_eq_true h))

theorem execMovz_of_zero (a b : RegIdx) (h : s.readReg c = 0) :
    execMovz a b c s = .next (s.writeReg b (s.readReg a)) :=
  congrArg Host.Outcome.next (if_neg (by simp [isNonzero, h]))

end Cases

/-! ### The default parameters -/

/-- `exec` is the meaning of an instruction at the default parameters. -/
theorem execIn_defaultParams (i : Instr) (s : State) : execIn defaultParams i s = exec i s := by
  cases i <;> rfl

/-- `step` is the step at the default parameters (R6). -/
theorem stepIn_defaultParams (s : State) : stepIn defaultParams s = step s := by
  have h : execIn defaultParams = exec := funext fun i => funext fun s => execIn_defaultParams i s
  simp only [stepIn, step, h]

/-! ### Jump handlers (R252) -/

theorem runJump_of_write {p : Config.Params} {op : BitVec 6} {handler : Config.JumpHandler} {target : Target}
    {s : State} {v : Word} (hj : p.jumpTable op = some handler) (hv : handler target s.pc = some v) :
    runJump p op target s = { s with pc := v } := by
  simp [runJump, hj, hv]

theorem runJump_of_no_write {p : Config.Params} {op : BitVec 6} {handler : Config.JumpHandler} {target : Target}
    {s : State} (hj : p.jumpTable op = some handler) (hv : handler target s.pc = none) :
    runJump p op target s = s := by
  simp [runJump, hj, hv]

end Sys2Proof.Laws
end

