-- ==== Sys2Proof/Laws/Operands.lean ====
section
/-! SUPPORT. The operand forms and shared operations as numbers, in the spec's own terms (R9, R88, R89). -/

namespace Sys2Proof.Laws

open Sys2Proof.Machine

/-! ### Immediates -/

theorem zextImm_toNat (imm : Imm) : (zextImm imm).toNat = imm.toNat := by
  have := imm.isLt
  simp only [zextImm, BitVec.toNat_setWidth]
  omega

theorem sextImm_toInt (imm : Imm) : (sextImm imm).toInt = imm.toInt := by
  simp only [sextImm]
  exact BitVec.toInt_signExtend_of_le (by decide)

theorem upperImm_toNat (imm : Imm) : (upperImm imm).toNat = imm.toNat * 2 ^ 16 := by
  have h : (0 : BitVec 16).toNat = 0 := rfl
  simp only [upperImm, BitVec.toNat_append, h, Nat.or_zero, Nat.shiftLeft_eq]

/-! ### Amounts -/

/-- A variable amount is the register's value modulo 32 (R89). -/
theorem regAmount_eq_mod (v : Word) : regAmount v = v.toNat % 32 := by
  simp [regAmount, BitVec.extractLsb'_toNat]

theorem regAmount_lt (v : Word) : regAmount v < 32 := by
  rw [regAmount_eq_mod]; omega

theorem fixedAmount_lt (d : Amount) : fixedAmount d < 32 := d.isLt

/-! ### Shifts, bit by bit and as numbers -/

theorem shiftLeft_toNat (v : Word) (n : Nat) : (shiftLeft v n).toNat = v.toNat * 2 ^ n % 2 ^ 32 := by
  simp [shiftLeft, BitVec.toNat_shiftLeft, Nat.shiftLeft_eq]

theorem shiftRightLogical_toNat (v : Word) (n : Nat) : (shiftRightLogical v n).toNat = v.toNat / 2 ^ n := by
  simp [shiftRightLogical, BitVec.toNat_ushiftRight, Nat.shiftRight_eq_div_pow]

theorem shiftRightArith_toInt (v : Word) (n : Nat) : (shiftRightArith v n).toInt = v.toInt / 2 ^ n := by
  simp [shiftRightArith, BitVec.toInt_sshiftRight, Int.shiftRight_eq_div_pow]

theorem getLsbD_shiftLeft (v : Word) (n i : Nat) :
    (shiftLeft v n).getLsbD i = (decide (i < 32) && !decide (i < n) && v.getLsbD (i - n)) := by
  simp [shiftLeft, BitVec.getLsbD_shiftLeft]

theorem getLsbD_shiftRightLogical (v : Word) (n i : Nat) :
    (shiftRightLogical v n).getLsbD i = v.getLsbD (n + i) := by
  simp [shiftRightLogical, BitVec.getLsbD_ushiftRight]

/-- Bit `i` of a rotation by `n` is bit `(i + n) mod 32` of the value (R196). -/
theorem getLsbD_rotateRight (v : Word) {n i : Nat} (hn : n < 32) (hi : i < 32) :
    (rotateRight v n).getLsbD i = v.getLsbD ((i + n) % 32) := by
  unfold rotateRight
  split_ifs with h0
  · subst h0; simp [Nat.mod_eq_of_lt hi]
  · simp only [BitVec.getLsbD_or, getLsbD_shiftLeft, getLsbD_shiftRightLogical, hi, decide_true, Bool.true_and]
    by_cases hw : i < 32 - n
    · rw [Nat.mod_eq_of_lt (show i + n < 32 by omega)]
      simp [hw, Nat.add_comm]
    · rw [show (i + n) % 32 = i - (32 - n) by omega]
      simp [hw, BitVec.getLsbD_of_ge v (n + i) (by omega)]

/-! ### Products and quotients -/

theorem mulLow_toInt_emod (v w : Word) : ((mulLow v w).toNat : Int) = (v.toInt * w.toInt) % 2 ^ 32 := by
  simp only [mulLow, BitVec.toNat_ofInt]
  rw [Int.toNat_of_nonneg (Int.emod_nonneg _ (by decide))]
  rfl

theorem mulSigned_emod (v w : Word) : ((mulSigned v w).toNat : Int) = (v.toInt * w.toInt) % 2 ^ 64 := by
  simp only [mulSigned, BitVec.toNat_ofInt]
  rw [Int.toNat_of_nonneg (Int.emod_nonneg _ (by decide))]
  rfl

theorem mulUnsigned_toNat (v w : Word) : (mulUnsigned v w).toNat = v.toNat * w.toNat := by
  have hv := v.isLt
  have hw := w.isLt
  simp only [mulUnsigned, BitVec.toNat_ofNat]
  refine Nat.mod_eq_of_lt ?_
  calc v.toNat * w.toNat < 2 ^ 32 * 2 ^ 32 := Nat.mul_lt_mul'' hv hw
    _ = 2 ^ 64 := by decide

theorem quotSigned_emod (v w : Word) : ((quotSigned v w).toNat : Int) = (v.toInt.tdiv w.toInt) % 2 ^ 64 := by
  simp only [quotSigned, BitVec.toNat_ofInt]
  rw [Int.toNat_of_nonneg (Int.emod_nonneg _ (by decide))]
  rfl

theorem quotUnsigned_toNat (v w : Word) : (quotUnsigned v w).toNat = v.toNat / w.toNat := by
  have hv := v.isLt
  simp only [quotUnsigned, BitVec.toNat_ofNat]
  exact Nat.mod_eq_of_lt (lt_of_le_of_lt (Nat.div_le_self _ _) (by omega))

/-! ### Bit fields -/

/-- `popcount` counts the positions of the 32 whose bit is 1 (R9). -/
theorem popcount_eq_card (v : Word) :
    popcount v = (Finset.univ.filter fun i : Fin 32 => v.getLsbD i = true).card := by
  rw [popcount, List.countP_eq_length_filter, ← List.map_coe_finRange_eq_range, List.filter_map,
    List.length_map, ← List.toFinset_card_of_nodup ((List.nodup_finRange 32).filter _)]
  congr 1
  ext i
  simp

theorem popcount_le (v : Word) : popcount v ≤ 32 := by
  have := List.countP_le_length (p := fun i => v.getLsbD i) (l := List.range 32)
  simpa [popcount] using this

theorem lowMask_toNat (size : Amount) : (lowMask size).toNat = 2 ^ size.toNat - 1 := by
  have h := size.isLt
  have : 2 ^ size.toNat ≤ 2 ^ 31 := Nat.pow_le_pow_right (by decide) (by omega)
  simp only [lowMask, BitVec.toNat_ofNat]
  omega

theorem getLsbD_lowMask (size : Amount) (i : Nat) : (lowMask size).getLsbD i = decide (i < size.toNat) := by
  rw [← BitVec.testBit_toNat, lowMask_toNat, Nat.testBit_two_pow_sub_one]

/-- `ext` keeps bits `pos .. pos + size - 1` of its source, in place (R234). -/
theorem getLsbD_extractField (v : Word) (pos size : Amount) (i : Nat) :
    (extractField v pos size).getLsbD i =
      (v.getLsbD i && decide (pos.toNat ≤ i ∧ i < pos.toNat + size.toNat)) := by
  by_cases hi : i < 32
  · simp only [extractField, BitVec.getLsbD_and, getLsbD_shiftLeft, getLsbD_lowMask, hi, decide_true,
      Bool.true_and]
    by_cases h : i < pos.toNat
    · simp [h]
    · simp only [h, decide_false, Bool.not_false, Bool.true_and]
      congr 1
      exact decide_eq_decide.mpr (by omega)
  · have hi : 32 ≤ i := by omega
    rw [BitVec.getLsbD_of_ge _ _ hi, BitVec.getLsbD_of_ge v _ hi, Bool.false_and]

/-- The field `ins` inserts: bit `i` is bit `i - pos` of the source's low `size` bits (R235). -/
theorem getLsbD_insertedField (v : Word) (pos size : Amount) {i : Nat} (hi : i < 32) :
    (insertedField v pos size).getLsbD i =
      (decide (pos.toNat ≤ i ∧ i < pos.toNat + size.toNat) && v.getLsbD (i - pos.toNat)) := by
  simp only [insertedField, getLsbD_shiftLeft, BitVec.getLsbD_and, getLsbD_lowMask, hi, decide_true,
    Bool.true_and]
  by_cases h : i < pos.toNat
  · simp [h]
  · simp only [h, decide_false, Bool.not_false, Bool.true_and]
    rw [Bool.and_comm]
    congr 1
    exact decide_eq_decide.mpr (by omega)

/-- Bit `i` of the word with the bytes of each half swapped comes from the other byte of its half (R236). -/
theorem getLsbD_swapHalfBytes (v : Word) {i : Nat} (hi : i < 32) :
    (swapHalfBytes v).getLsbD i = v.getLsbD (if i % 16 < 8 then i + 8 else i - 8) := by
  simp only [swapHalfBytes, BitVec.getLsbD_append, BitVec.getLsbD_extractLsb']
  split_ifs <;> first
    | omega
    | (rw [decide_eq_true (by omega), Bool.true_and]; congr 1; omega)

/-! ### Comparisons -/

@[simp] theorem lessSigned_iff (v w : Word) : lessSigned v w = true ↔ v.toInt < w.toInt := by
  simp [lessSigned]

@[simp] theorem lessUnsigned_iff (v w : Word) : lessUnsigned v w = true ↔ v.toNat < w.toNat := by
  simp [lessUnsigned]

@[simp] theorem isNonzero_iff (v : Word) : isNonzero v = true ↔ v ≠ 0 := by
  simp [isNonzero]

@[simp] theorem condWord_true : condWord true = 1 := rfl
@[simp] theorem condWord_false : condWord false = 0 := rfl

/-! ### Rotations under a variant (R196 to R198) -/

theorem writeRotated_rotate (s : State) (b : RegIdx) (v : Word) (n : Nat) :
    s.writeRotated .rotate b v n = s.writeReg b (rotateRight v n) := rfl

theorem writeRotated_reference_of_ne (s : State) (b : RegIdx) (v : Word) {n : Nat} (h : n ≠ 1) :
    s.writeRotated .reference b v n = s.writeReg b (rotateRef v n) := by
  simp [State.writeRotated, h]

theorem writeRotated_reference_one (s : State) (b : RegIdx) (v : Word) :
    s.writeRotated .reference b v 1 = s.afterDraw.writeReg b (Config.draw32 s.draws) := rfl

end Sys2Proof.Laws
end

