-- ==== Sys2Proof/Laws/Safety.lean ====
section
/-! SUPPORT. The claims' notation as the machine's, and what each shared update leaves unchanged: one lemma
per update, cited instead of unfolding it. -/

namespace Sys2Proof.Laws

open Sys2Proof.Machine Sys2Proof.Safety

/-! ### Notation -/

/-- `s32` is the two's-complement reading of a word (R8). -/
theorem s32_eq_toInt (v : Word) : s32 v = v.toInt := by
  have := v.isLt
  rw [s32, BitVec.toInt_eq_toNat_cond]
  split_ifs <;> omega

/-- A signed immediate as a number, both ways of reading it. -/
theorem sextImm_s32 (imm : Imm) :
    (sextImm imm).toInt = if imm.toNat < 2 ^ 15 then (imm.toNat : Int) else imm.toNat - 2 ^ 16 := by
  have := imm.isLt
  rw [sextImm_toInt, BitVec.toInt_eq_toNat_cond]
  split_ifs <;> omega

theorem sextImm_toNat (imm : Imm) :
    (sextImm imm).toNat = if imm.toNat < 2 ^ 15 then imm.toNat else imm.toNat + 0xFFFF0000 := by
  have h := sextImm_s32 imm
  have := imm.isLt
  have := (sextImm imm).isLt
  rw [BitVec.toInt_eq_toNat_cond] at h
  split_ifs at * <;> omega

theorem regWord_eq_wordR (func : BitVec 6) (a b c d : BitVec 5) :
    regWord func.toNat a b c d = wordR func a b c d := by
  apply BitVec.eq_of_toNat_eq
  have := func.isLt; have := a.isLt; have := b.isLt; have := c.isLt; have := d.isLt
  rw [wordR_toNat, regWord, BitVec.toNat_ofNat]
  omega

theorem immWord_eq_wordI (op : BitVec 6) (a b : BitVec 5) (imm : Imm) :
    immWord op.toNat a b imm = wordI op a b imm := by
  apply BitVec.eq_of_toNat_eq
  have := op.isLt; have := a.isLt; have := b.isLt; have := imm.isLt
  rw [wordI_toNat, immWord, BitVec.toNat_ofNat]
  omega

theorem jumpWord_eq_wordJ (op : BitVec 6) (target : Target) : jumpWord op.toNat target = wordJ op target := by
  apply BitVec.eq_of_toNat_eq
  have := op.isLt; have := target.isLt
  rw [wordJ_toNat, jumpWord, BitVec.toNat_ofNat]
  omega

/-- A register-form word of the spec's table decodes to its operation (R91, R97). -/
theorem decode_regWord (o : Config.RegOp) (a b c d : BitVec 5) :
    decode (regWord (defaultFunctCode o).toNat a b c d) = .instr (regInstr .posInDSizeInC o a b c d) := by
  rw [regWord_eq_wordR]
  exact decodeIn_wordR functCodesDistinct_defaultParams o a b c d

/-- An immediate-form word of the spec's table decodes to its operation (R92, R97). -/
theorem decode_immWord (o : Config.ImmOp) (a b : BitVec 5) (imm : Imm) :
    decode (immWord (defaultImmOpcode o).toNat a b imm) = .instr (immInstr o a b imm) := by
  rw [immWord_eq_wordI]
  exact decodeIn_wordI (p := defaultParams) immOpcodesDistinct_defaultParams (by decide) rfl o a b imm

/-! ### Frames of the shared updates -/

theorem sameEngine_refl (s : State) : SameEngine s s := ⟨rfl, rfl, rfl, rfl, fun _ => rfl⟩

theorem onlyReg_refl (b : RegIdx) (s : State) : OnlyReg b s s :=
  ⟨fun _ _ => rfl, ⟨rfl, rfl⟩, rfl, sameEngine_refl s⟩

theorem onlyReg_writeReg (s : State) (b : RegIdx) (v : Word) : OnlyReg b s (s.writeReg b v) :=
  ⟨fun _ h => readReg_writeReg_of_ne s h v, ⟨rfl, rfl⟩, rfl, rfl, rfl, rfl, rfl, fun _ => rfl⟩

theorem onlyAcc_setAcc64 (s : State) (w : DWord) : OnlyAcc s (s.setAcc64 w) :=
  ⟨fun _ => rfl, rfl, rfl, rfl, rfl, rfl, fun _ => rfl⟩

theorem sameEngine_drawAcc (s : State) : SameEngine s s.drawAcc := ⟨rfl, rfl, rfl, rfl, fun _ => rfl⟩

theorem onlyPc_advancePc (s : State) : OnlyPc s s.advancePc :=
  ⟨fun _ => rfl, ⟨rfl, rfl⟩, rfl, rfl, rfl, rfl, fun _ => rfl⟩

/-! ### Results of the shared updates -/

/-- An instruction whose meaning writes `v` to register `b` has the result `v` there. -/
theorem regResult_of_writeReg {i : Instr} {s : State} {b : RegIdx} {v : Word} {n : Nat}
    (he : exec i s = .next (s.writeReg b v)) (hv : v.toNat = n) : RegResult i s b n :=
  ⟨_, he, by rw [readReg_writeReg_self, hv], onlyReg_writeReg s b v⟩

/-- An instruction whose meaning writes nothing leaves every register, `b` among them. -/
theorem regResult_of_same {i : Instr} {s : State} {b : RegIdx} (he : exec i s = .next s) :
    RegResult i s b (s.readReg b).toNat :=
  ⟨s, he, rfl, onlyReg_refl b s⟩

/-- An instruction whose meaning writes `v` to register `b` has the bits of `v` there. -/
theorem regBits_of_writeReg {i : Instr} {s : State} {b : RegIdx} {v : Word} {f : Nat → Bool}
    (he : exec i s = .next (s.writeReg b v)) (hv : ∀ k, k < 32 → v.getLsbD k = f k) : RegBits i s b f :=
  ⟨_, he, fun k hk => by rw [readReg_writeReg_self, hv k hk], onlyReg_writeReg s b v⟩

/-- An instruction whose meaning sets the accumulator to `w` has the number of `w` there. -/
theorem accResult_of_setAcc64 {i : Instr} {s : State} {w : DWord} {n : Int}
    (he : exec i s = .next (s.setAcc64 w)) (hw : (w.toNat : Int) = n % 2 ^ 64) : AccResult i s n :=
  ⟨_, he, by rw [← acc64_toNat, acc64_setAcc64, hw], onlyAcc_setAcc64 s w⟩

/-- An instruction whose meaning draws the accumulator. -/
theorem accDrawn_of_drawAcc {i : Instr} {s : State} (he : exec i s = .next s.drawAcc) : AccDrawn i s :=
  ⟨_, he, rfl, rfl, rfl, fun _ => rfl, sameEngine_drawAcc s⟩

theorem accBefore_eq (s : State) : accBefore s = s.acc64.toNat := (acc64_toNat s).symm

end Sys2Proof.Laws
end

