-- ==== Sys2Proof/Laws/Exec.lean ====
section
/-! SUPPORT. Everything a meaning can do to the state, said once over all instructions: nothing, one write of
its destination register, one write of the accumulator pair, or two draws into it (spec R34, R43). -/

namespace Sys2Proof.Laws

open Sys2Proof.Machine Sys2Proof.Safety

/-- The four shapes of an instruction's effect. -/
inductive Effect (i : Instr) (s : State) : Prop where
  /-- Nothing is written (`movn`, `movz` whose condition fails, R211, R212). -/
  | nothing (b : RegIdx) (hb : destReg i = some b) (hw : writesAcc i = false) (he : exec i s = .next s)
  /-- The destination register is written. -/
  | reg (b : RegIdx) (v : Word) (hb : destReg i = some b) (hw : writesAcc i = false)
      (he : exec i s = .next (s.writeReg b v))
  /-- The accumulator pair is written. -/
  | acc (w : DWord) (hb : destReg i = none) (hw : writesAcc i = true) (he : exec i s = .next (s.setAcc64 w))
  /-- Both halves of the accumulator pair are drawn (R150, R151). -/
  | drawn (hb : destReg i = none) (hw : writesAcc i = true) (he : exec i s = .next s.drawAcc)

/-- Every instruction in every state has one of the four effects. -/
theorem exec_effect (i : Instr) (s : State) : Effect i s := by
  cases i
  case div a c =>
    by_cases h : s.readReg c = 0
    · exact .drawn rfl rfl (execDiv_of_zero a h)
    · exact .acc _ rfl rfl (execDiv_of_ne_zero a h)
  case divu a c =>
    by_cases h : s.readReg c = 0
    · exact .drawn rfl rfl (execDivu_of_zero a h)
    · exact .acc _ rfl rfl (execDivu_of_ne_zero a h)
  case movn a b c =>
    by_cases h : s.readReg c = 0
    · exact .nothing b rfl rfl (execMovn_of_zero a b h)
    · exact .reg b _ rfl rfl (execMovn_of_ne_zero a b h)
  case movz a b c =>
    by_cases h : s.readReg c = 0
    · exact .reg b _ rfl rfl (execMovz_of_zero a b h)
    · exact .nothing b rfl rfl (execMovz_of_ne_zero a b h)
  case madd => exact .acc _ rfl rfl rfl
  case maddu => exact .acc _ rfl rfl rfl
  case msub => exact .acc _ rfl rfl rfl
  case msubu => exact .acc _ rfl rfl rfl
  all_goals exact .reg _ _ rfl rfl rfl

end Sys2Proof.Laws
end

