-- ==== Sys2Proof/Laws/Interface.lean ====
section
/-! SUPPORT. Everything the host's calls, the loader and the bus signals can do, said once under any parameters
(spec R6, R49, R62 to R64, R293). -/

namespace Sys2Proof.Laws

open Sys2Proof.Machine

variable {p : Config.Params} {s t : State} {addr v : Word}

/-! ### The host's bus -/

/-- All a host write can do (R62, R64). -/
theorem hostWriteIn_eq (p : Config.Params) (addr v : Word) (s : State) :
    hostWriteIn p addr v s =
      if addr.toNat < 4 * p.memWords then .next { s with mem := s.mem.writeWord (addr.toNat / 4) v }
      else .fault (.hostRange addr) := by
  rw [hostWriteIn, busWrite_eq]; split_ifs <;> rfl

/-- All a host read can do (R62, R63). -/
theorem hostReadIn_eq (p : Config.Params) (addr : Word) (s : State) :
    hostReadIn p addr s =
      if addr.toNat < 4 * p.memWords then .ok (s.mem.readWord (addr.toNat / 4))
      else .error (.hostRange addr) := by
  rw [hostReadIn, busRead_eq]; split_ifs <;> rfl

/-- A host write that succeeds changes nothing but the bus, and keeps its canonical form. -/
theorem hostWriteIn_eq_next (h : hostWriteIn p addr v s = .next t) :
    ∃ m, t = { s with mem := m } ∧ (s.mem.wf = true → m.wf = true) ∧
      (s.mem.inBus p.memWords = true → m.inBus p.memWords = true) := by
  rw [hostWriteIn_eq] at h
  split_ifs at h with ha
  cases h
  exact ⟨_, rfl, fun hm => wf_writeWord hm _ _, fun hm => inBus_writeWord hm (by omega) _⟩

/-- A load that succeeds changes nothing but the bus, and keeps its canonical form. -/
theorem loadFromIn_eq_next {ws : List Word} (h : loadFromIn p addr ws s = .next t) :
    ∃ m, t = { s with mem := m } ∧ (s.mem.wf = true → m.wf = true) ∧
      (s.mem.inBus p.memWords = true → m.inBus p.memWords = true) := by
  induction ws generalizing addr s with
  | nil => cases h; exact ⟨_, rfl, id, id⟩
  | cons w ws ih =>
    rw [loadFromIn] at h
    split at h
    · obtain ⟨m, rfl, hw, hb⟩ := hostWriteIn_eq_next (by assumption)
      obtain ⟨m', rfl, hw', hb'⟩ := ih h
      exact ⟨m', rfl, hw' ∘ hw, hb' ∘ hb⟩
    · cases h
    · cases h

/-! ### The bus signals -/

/-- `ibus_range_err` is high exactly where the pc lies beyond the bus (R49, R62). -/
theorem ibusRangeErrIn_iff : ibusRangeErrIn p s = true ↔ 4 * p.memWords ≤ s.pc.toNat := by
  rw [ibusRangeErrIn, Bool.not_eq_true', ← Bool.not_eq_true, validAddr_iff, ibusAddr, Nat.not_lt]

/-- `ibus_data` gives no word exactly where `ibus_range_err` is high (R49). -/
theorem ibusDataIn_eq_none : ibusDataIn p s = none ↔ ibusRangeErrIn p s = true := by
  rw [ibusRangeErrIn_iff]; exact busRead_eq_none

/-! ### The clock -/

@[simp] theorem clockEdgeIn_rst (n : Word) : clockEdgeIn p true n s = .next (State.resetWith n) := rfl
@[simp] theorem clockEdgeIn_step (n : Word) : clockEdgeIn p false n s = stepIn p s := rfl

/-- At the default parameters the edge without `rst` is `step` (R49, R122). -/
theorem clockEdge_step (n : Word) : clockEdge false n s = step s := by
  rw [clockEdge, clockEdgeIn_step, stepIn_defaultParams]

end Sys2Proof.Laws
end

