-- ==== Sys2Proof/Laws/PerInstr.lean ====
section
/-! SUPPORT. For every instruction: its word carries the fixed bits of its row of spec/opcode_table.json. -/

/-- The fixed bits of an instruction's row: the primary opcode, and the function code of a register-form row. -/
def Sys2Proof.Laws.OpcodeRow.row : Sys2Proof.Instr → BitVec 6 × Option (BitVec 6)
  | .add _ _ _ => (0, some 0x20)
  | .addu _ _ _ => (0, some 0x21)
  | .addi _ _ _ => (0x08, none)
  | .addiu _ _ _ => (0x09, none)
  | .sub _ _ _ => (0, some 0x22)
  | .subu _ _ _ => (0, some 0x23)
  | .mul _ _ _ => (0, some 0x18)
  | .div _ _ => (0, some 0x1A)
  | .divu _ _ => (0, some 0x1B)
  | .madd _ _ => (0, some 0x1C)
  | .maddu _ _ => (0, some 0x1D)
  | .msub _ _ => (0, some 0x1E)
  | .msubu _ _ => (0, some 0x1F)
  | .and _ _ _ => (0, some 0x24)
  | .andi _ _ _ => (0x0C, none)
  | .or _ _ _ => (0, some 0x25)
  | .ori _ _ _ => (0x0D, none)
  | .xor _ _ _ => (0, some 0x26)
  | .xori _ _ _ => (0x0E, none)
  | .nor _ _ _ => (0, some 0x27)
  | .not _ _ => (0, some 0x28)
  | .sll _ _ _ => (0, some 0x00)
  | .srl _ _ _ => (0, some 0x02)
  | .sllv _ _ _ => (0, some 0x04)
  | .srlv _ _ _ => (0, some 0x06)
  | .sra _ _ _ => (0, some 0x03)
  | .srav _ _ _ => (0, some 0x07)
  | .rotr _ _ _ => (0, some 0x01)
  | .rotrv _ _ _ => (0, some 0x05)
  | .mov _ _ => (0, some 0x0E)
  | .movn _ _ _ => (0, some 0x0B)
  | .movz _ _ _ => (0, some 0x0A)
  | .negu _ _ => (0, some 0x29)
  | .slt _ _ _ => (0, some 0x2A)
  | .sltu _ _ _ => (0, some 0x2B)
  | .slti _ _ _ => (0x0A, none)
  | .sltiu _ _ _ => (0x0B, none)
  | .seb _ _ => (0, some 0x38)
  | .seh _ _ => (0, some 0x39)
  | .clo _ _ => (0, some 0x3B)
  | .clz _ _ => (0, some 0x3C)
  | .ext _ _ _ _ => (0, some 0x3D)
  | .ins _ _ _ _ => (0, some 0x3E)
  | .wsbh _ _ => (0, some 0x3A)
  | .lui _ _ => (0x0F, none)

/-- The encoding of an instruction has its row's fixed bits. -/
def Sys2Proof.Laws.OpcodeRow.Statement (i : Sys2Proof.Instr) : Prop :=
  Sys2Proof.opField (Sys2Proof.encode i) = (Sys2Proof.Laws.OpcodeRow.row i).1 ∧
    ∀ f, (Sys2Proof.Laws.OpcodeRow.row i).2 = some f → Sys2Proof.funcField (Sys2Proof.encode i) = f

theorem Sys2Proof.Laws.OpcodeRow.statement_wordR {i : Sys2Proof.Instr} (func : BitVec 6) (a b c d : BitVec 5)
    (he : Sys2Proof.encode i = Sys2Proof.wordR func a b c d)
    (hr : Sys2Proof.Laws.OpcodeRow.row i = (0, some func)) : Sys2Proof.Laws.OpcodeRow.Statement i := by
  simp [Sys2Proof.Laws.OpcodeRow.Statement, he, hr]

theorem Sys2Proof.Laws.OpcodeRow.statement_wordI {i : Sys2Proof.Instr} (op : BitVec 6) (a b : BitVec 5)
    (imm : Sys2Proof.Imm) (he : Sys2Proof.encode i = Sys2Proof.wordI op a b imm)
    (hr : Sys2Proof.Laws.OpcodeRow.row i = (op, none)) : Sys2Proof.Laws.OpcodeRow.Statement i := by
  simp [Sys2Proof.Laws.OpcodeRow.Statement, he, hr]

theorem Sys2Proof.Laws.OpcodeRow.add (a b c : RegIdx) : Sys2Proof.Laws.OpcodeRow.Statement (.add a b c) := by
  exact Sys2Proof.Laws.OpcodeRow.statement_wordR _ _ _ _ _ rfl rfl

theorem Sys2Proof.Laws.OpcodeRow.addu (a b c : RegIdx) : Sys2Proof.Laws.OpcodeRow.Statement (.addu a b c) := by
  exact Sys2Proof.Laws.OpcodeRow.statement_wordR _ _ _ _ _ rfl rfl

theorem Sys2Proof.Laws.OpcodeRow.addi (a b : RegIdx) (imm : Imm) : Sys2Proof.Laws.OpcodeRow.Statement (.addi a b imm) := by
  exact Sys2Proof.Laws.OpcodeRow.statement_wordI _ _ _ _ rfl rfl

theorem Sys2Proof.Laws.OpcodeRow.addiu (a b : RegIdx) (imm : Imm) : Sys2Proof.Laws.OpcodeRow.Statement (.addiu a b imm) := by
  exact Sys2Proof.Laws.OpcodeRow.statement_wordI _ _ _ _ rfl rfl

theorem Sys2Proof.Laws.OpcodeRow.sub (a b c : RegIdx) : Sys2Proof.Laws.OpcodeRow.Statement (.sub a b c) := by
  exact Sys2Proof.Laws.OpcodeRow.statement_wordR _ _ _ _ _ rfl rfl

theorem Sys2Proof.Laws.OpcodeRow.subu (a b c : RegIdx) : Sys2Proof.Laws.OpcodeRow.Statement (.subu a b c) := by
  exact Sys2Proof.Laws.OpcodeRow.statement_wordR _ _ _ _ _ rfl rfl

theorem Sys2Proof.Laws.OpcodeRow.mul (a b c : RegIdx) : Sys2Proof.Laws.OpcodeRow.Statement (.mul a b c) := by
  exact Sys2Proof.Laws.OpcodeRow.statement_wordR _ _ _ _ _ rfl rfl

theorem Sys2Proof.Laws.OpcodeRow.div (a c : RegIdx) : Sys2Proof.Laws.OpcodeRow.Statement (.div a c) := by
  exact Sys2Proof.Laws.OpcodeRow.statement_wordR _ _ _ _ _ rfl rfl

theorem Sys2Proof.Laws.OpcodeRow.divu (a c : RegIdx) : Sys2Proof.Laws.OpcodeRow.Statement (.divu a c) := by
  exact Sys2Proof.Laws.OpcodeRow.statement_wordR _ _ _ _ _ rfl rfl

theorem Sys2Proof.Laws.OpcodeRow.madd (a c : RegIdx) : Sys2Proof.Laws.OpcodeRow.Statement (.madd a c) := by
  exact Sys2Proof.Laws.OpcodeRow.statement_wordR _ _ _ _ _ rfl rfl

theorem Sys2Proof.Laws.OpcodeRow.maddu (a c : RegIdx) : Sys2Proof.Laws.OpcodeRow.Statement (.maddu a c) := by
  exact Sys2Proof.Laws.OpcodeRow.statement_wordR _ _ _ _ _ rfl rfl

theorem Sys2Proof.Laws.OpcodeRow.msub (a c : RegIdx) : Sys2Proof.Laws.OpcodeRow.Statement (.msub a c) := by
  exact Sys2Proof.Laws.OpcodeRow.statement_wordR _ _ _ _ _ rfl rfl

theorem Sys2Proof.Laws.OpcodeRow.msubu (a c : RegIdx) : Sys2Proof.Laws.OpcodeRow.Statement (.msubu a c) := by
  exact Sys2Proof.Laws.OpcodeRow.statement_wordR _ _ _ _ _ rfl rfl

theorem Sys2Proof.Laws.OpcodeRow.and (a b c : RegIdx) : Sys2Proof.Laws.OpcodeRow.Statement (.and a b c) := by
  exact Sys2Proof.Laws.OpcodeRow.statement_wordR _ _ _ _ _ rfl rfl

theorem Sys2Proof.Laws.OpcodeRow.andi (a b : RegIdx) (imm : Imm) : Sys2Proof.Laws.OpcodeRow.Statement (.andi a b imm) := by
  exact Sys2Proof.Laws.OpcodeRow.statement_wordI _ _ _ _ rfl rfl

theorem Sys2Proof.Laws.OpcodeRow.or (a b c : RegIdx) : Sys2Proof.Laws.OpcodeRow.Statement (.or a b c) := by
  exact Sys2Proof.Laws.OpcodeRow.statement_wordR _ _ _ _ _ rfl rfl

theorem Sys2Proof.Laws.OpcodeRow.ori (a b : RegIdx) (imm : Imm) : Sys2Proof.Laws.OpcodeRow.Statement (.ori a b imm) := by
  exact Sys2Proof.Laws.OpcodeRow.statement_wordI _ _ _ _ rfl rfl

theorem Sys2Proof.Laws.OpcodeRow.xor (a b c : RegIdx) : Sys2Proof.Laws.OpcodeRow.Statement (.xor a b c) := by
  exact Sys2Proof.Laws.OpcodeRow.statement_wordR _ _ _ _ _ rfl rfl

theorem Sys2Proof.Laws.OpcodeRow.xori (a b : RegIdx) (imm : Imm) : Sys2Proof.Laws.OpcodeRow.Statement (.xori a b imm) := by
  exact Sys2Proof.Laws.OpcodeRow.statement_wordI _ _ _ _ rfl rfl

theorem Sys2Proof.Laws.OpcodeRow.nor (a b c : RegIdx) : Sys2Proof.Laws.OpcodeRow.Statement (.nor a b c) := by
  exact Sys2Proof.Laws.OpcodeRow.statement_wordR _ _ _ _ _ rfl rfl

theorem Sys2Proof.Laws.OpcodeRow.not (a b : RegIdx) : Sys2Proof.Laws.OpcodeRow.Statement (.not a b) := by
  exact Sys2Proof.Laws.OpcodeRow.statement_wordR _ _ _ _ _ rfl rfl

theorem Sys2Proof.Laws.OpcodeRow.sll (a b : RegIdx) (d : Amount) : Sys2Proof.Laws.OpcodeRow.Statement (.sll a b d) := by
  exact Sys2Proof.Laws.OpcodeRow.statement_wordR _ _ _ _ _ rfl rfl

theorem Sys2Proof.Laws.OpcodeRow.srl (a b : RegIdx) (d : Amount) : Sys2Proof.Laws.OpcodeRow.Statement (.srl a b d) := by
  exact Sys2Proof.Laws.OpcodeRow.statement_wordR _ _ _ _ _ rfl rfl

theorem Sys2Proof.Laws.OpcodeRow.sllv (a b c : RegIdx) : Sys2Proof.Laws.OpcodeRow.Statement (.sllv a b c) := by
  exact Sys2Proof.Laws.OpcodeRow.statement_wordR _ _ _ _ _ rfl rfl

theorem Sys2Proof.Laws.OpcodeRow.srlv (a b c : RegIdx) : Sys2Proof.Laws.OpcodeRow.Statement (.srlv a b c) := by
  exact Sys2Proof.Laws.OpcodeRow.statement_wordR _ _ _ _ _ rfl rfl

theorem Sys2Proof.Laws.OpcodeRow.sra (a b : RegIdx) (d : Amount) : Sys2Proof.Laws.OpcodeRow.Statement (.sra a b d) := by
  exact Sys2Proof.Laws.OpcodeRow.statement_wordR _ _ _ _ _ rfl rfl

theorem Sys2Proof.Laws.OpcodeRow.srav (a b c : RegIdx) : Sys2Proof.Laws.OpcodeRow.Statement (.srav a b c) := by
  exact Sys2Proof.Laws.OpcodeRow.statement_wordR _ _ _ _ _ rfl rfl

theorem Sys2Proof.Laws.OpcodeRow.rotr (a b : RegIdx) (d : Amount) : Sys2Proof.Laws.OpcodeRow.Statement (.rotr a b d) := by
  exact Sys2Proof.Laws.OpcodeRow.statement_wordR _ _ _ _ _ rfl rfl

theorem Sys2Proof.Laws.OpcodeRow.rotrv (a b c : RegIdx) : Sys2Proof.Laws.OpcodeRow.Statement (.rotrv a b c) := by
  exact Sys2Proof.Laws.OpcodeRow.statement_wordR _ _ _ _ _ rfl rfl

theorem Sys2Proof.Laws.OpcodeRow.mov (a b : RegIdx) : Sys2Proof.Laws.OpcodeRow.Statement (.mov a b) := by
  exact Sys2Proof.Laws.OpcodeRow.statement_wordR _ _ _ _ _ rfl rfl

theorem Sys2Proof.Laws.OpcodeRow.movn (a b c : RegIdx) : Sys2Proof.Laws.OpcodeRow.Statement (.movn a b c) := by
  exact Sys2Proof.Laws.OpcodeRow.statement_wordR _ _ _ _ _ rfl rfl

theorem Sys2Proof.Laws.OpcodeRow.movz (a b c : RegIdx) : Sys2Proof.Laws.OpcodeRow.Statement (.movz a b c) := by
  exact Sys2Proof.Laws.OpcodeRow.statement_wordR _ _ _ _ _ rfl rfl

theorem Sys2Proof.Laws.OpcodeRow.negu (a b : RegIdx) : Sys2Proof.Laws.OpcodeRow.Statement (.negu a b) := by
  exact Sys2Proof.Laws.OpcodeRow.statement_wordR _ _ _ _ _ rfl rfl

theorem Sys2Proof.Laws.OpcodeRow.slt (a b c : RegIdx) : Sys2Proof.Laws.OpcodeRow.Statement (.slt a b c) := by
  exact Sys2Proof.Laws.OpcodeRow.statement_wordR _ _ _ _ _ rfl rfl

theorem Sys2Proof.Laws.OpcodeRow.sltu (a b c : RegIdx) : Sys2Proof.Laws.OpcodeRow.Statement (.sltu a b c) := by
  exact Sys2Proof.Laws.OpcodeRow.statement_wordR _ _ _ _ _ rfl rfl

theorem Sys2Proof.Laws.OpcodeRow.slti (a b : RegIdx) (imm : Imm) : Sys2Proof.Laws.OpcodeRow.Statement (.slti a b imm) := by
  exact Sys2Proof.Laws.OpcodeRow.statement_wordI _ _ _ _ rfl rfl

theorem Sys2Proof.Laws.OpcodeRow.sltiu (a b : RegIdx) (imm : Imm) : Sys2Proof.Laws.OpcodeRow.Statement (.sltiu a b imm) := by
  exact Sys2Proof.Laws.OpcodeRow.statement_wordI _ _ _ _ rfl rfl

theorem Sys2Proof.Laws.OpcodeRow.seb (a b : RegIdx) : Sys2Proof.Laws.OpcodeRow.Statement (.seb a b) := by
  exact Sys2Proof.Laws.OpcodeRow.statement_wordR _ _ _ _ _ rfl rfl

theorem Sys2Proof.Laws.OpcodeRow.seh (a b : RegIdx) : Sys2Proof.Laws.OpcodeRow.Statement (.seh a b) := by
  exact Sys2Proof.Laws.OpcodeRow.statement_wordR _ _ _ _ _ rfl rfl

theorem Sys2Proof.Laws.OpcodeRow.clo (a b : RegIdx) : Sys2Proof.Laws.OpcodeRow.Statement (.clo a b) := by
  exact Sys2Proof.Laws.OpcodeRow.statement_wordR _ _ _ _ _ rfl rfl

theorem Sys2Proof.Laws.OpcodeRow.clz (a b : RegIdx) : Sys2Proof.Laws.OpcodeRow.Statement (.clz a b) := by
  exact Sys2Proof.Laws.OpcodeRow.statement_wordR _ _ _ _ _ rfl rfl

theorem Sys2Proof.Laws.OpcodeRow.ext (a b : RegIdx) (pos size : Amount) : Sys2Proof.Laws.OpcodeRow.Statement (.ext a b pos size) := by
  exact Sys2Proof.Laws.OpcodeRow.statement_wordR _ _ _ _ _ rfl rfl

theorem Sys2Proof.Laws.OpcodeRow.ins (a b : RegIdx) (pos size : Amount) : Sys2Proof.Laws.OpcodeRow.Statement (.ins a b pos size) := by
  exact Sys2Proof.Laws.OpcodeRow.statement_wordR _ _ _ _ _ rfl rfl

theorem Sys2Proof.Laws.OpcodeRow.wsbh (a b : RegIdx) : Sys2Proof.Laws.OpcodeRow.Statement (.wsbh a b) := by
  exact Sys2Proof.Laws.OpcodeRow.statement_wordR _ _ _ _ _ rfl rfl

theorem Sys2Proof.Laws.OpcodeRow.lui (b : RegIdx) (imm : Imm) : Sys2Proof.Laws.OpcodeRow.Statement (.lui b imm) := by
  exact Sys2Proof.Laws.OpcodeRow.statement_wordI _ _ _ _ rfl rfl
end

