-- ==== Sys2Proof/Tests/Slice0.lean ====
section
/-! SUPPORT. The model's own tests. The expected values are those of spec/95_test_vectors.md, which derives
them from the rules, or are worked out by hand from the rule cited. -/

namespace Sys2Proof.Tests

open Sys2Proof.Machine Sys2Proof.Safety

/-! ### Ill-formed parameters, one for each check of WellFormed.lean -/

theorem test_wf_default : defaultParams.wellFormed = true := by decide

theorem test_wf_shared_function_code :
    Config.Params.functCodesDistinct { defaultParams with functCode := fun _ => 0x20 } = false := by decide

theorem test_wf_shared_opcode :
    Config.Params.immOpcodesDistinct { defaultParams with immOpcode := fun _ => 0x08 } = false := by decide

theorem test_wf_opcode_out_of_range :
    Config.Params.immOpcodesInRange { defaultParams with immOpcode := fun _ => 44 } = false := by decide

theorem test_wf_immediate_past_the_word :
    Config.Params.immInWord { defaultParams with immLsb := 17 } = false := by decide

theorem test_wf_empty_bus : Config.Params.busAddressable { defaultParams with memWords := 0 } = false := by decide

theorem test_wf_bus_too_large :
    Config.Params.busAddressable { defaultParams with memWords := 2 ^ 30 + 1 } = false := by decide

theorem test_wf_refuses_whole :
    Config.Params.wellFormed { defaultParams with immLsb := 17 } = false := by decide

/-! ### Decoding: every instruction's word from its rule's example -/

theorem test_decode_sll : decode 0x00230100 = .instr (.sll 1 3 4) := by decide
theorem test_decode_rotr : decode 0x00230101 = .instr (.rotr 1 3 4) := by decide
theorem test_decode_srl : decode 0x00230102 = .instr (.srl 1 3 4) := by decide
theorem test_decode_sra : decode 0x00230103 = .instr (.sra 1 3 4) := by decide
theorem test_decode_sllv : decode 0x00231004 = .instr (.sllv 1 3 2) := by decide
theorem test_decode_rotrv : decode 0x00231005 = .instr (.rotrv 1 3 2) := by decide
theorem test_decode_srlv : decode 0x00231006 = .instr (.srlv 1 3 2) := by decide
theorem test_decode_srav : decode 0x00231007 = .instr (.srav 1 3 2) := by decide
theorem test_decode_movz : decode 0x0023100A = .instr (.movz 1 3 2) := by decide
theorem test_decode_movn : decode 0x0023100B = .instr (.movn 1 3 2) := by decide
theorem test_decode_mov : decode 0x0023000E = .instr (.mov 1 3) := by decide
theorem test_decode_mul : decode 0x00231018 = .instr (.mul 1 3 2) := by decide
theorem test_decode_div : decode 0x0020101A = .instr (.div 1 2) := by decide
theorem test_decode_divu : decode 0x0020101B = .instr (.divu 1 2) := by decide
theorem test_decode_madd : decode 0x0020101C = .instr (.madd 1 2) := by decide
theorem test_decode_maddu : decode 0x0020101D = .instr (.maddu 1 2) := by decide
theorem test_decode_msub : decode 0x0020101E = .instr (.msub 1 2) := by decide
theorem test_decode_msubu : decode 0x0020101F = .instr (.msubu 1 2) := by decide
theorem test_decode_add : decode 0x00231020 = .instr (.add 1 3 2) := by decide
theorem test_decode_addu : decode 0x00231021 = .instr (.addu 1 3 2) := by decide
theorem test_decode_sub : decode 0x00231022 = .instr (.sub 1 3 2) := by decide
theorem test_decode_subu : decode 0x00231023 = .instr (.subu 1 3 2) := by decide
theorem test_decode_and : decode 0x00231024 = .instr (.and 1 3 2) := by decide
theorem test_decode_or : decode 0x00231025 = .instr (.or 1 3 2) := by decide
theorem test_decode_xor : decode 0x00231026 = .instr (.xor 1 3 2) := by decide
theorem test_decode_nor : decode 0x00231027 = .instr (.nor 1 3 2) := by decide
theorem test_decode_not : decode 0x00230028 = .instr (.not 1 3) := by decide
theorem test_decode_negu : decode 0x00230029 = .instr (.negu 1 3) := by decide
theorem test_decode_slt : decode 0x0023102A = .instr (.slt 1 3 2) := by decide
theorem test_decode_sltu : decode 0x0023102B = .instr (.sltu 1 3 2) := by decide
theorem test_decode_seb : decode 0x00230038 = .instr (.seb 1 3) := by decide
theorem test_decode_seh : decode 0x00230039 = .instr (.seh 1 3) := by decide
theorem test_decode_wsbh : decode 0x0023003A = .instr (.wsbh 1 3) := by decide
theorem test_decode_clo : decode 0x0023003B = .instr (.clo 1 3) := by decide
theorem test_decode_clz : decode 0x0023003C = .instr (.clz 1 3) := by decide
theorem test_decode_ext : decode 0x0023223D = .instr (.ext 1 3 8 4) := by decide
theorem test_decode_ins : decode 0x0023223E = .instr (.ins 1 3 8 4) := by decide
theorem test_decode_addi : decode 0x2023FFFF = .instr (.addi 1 3 0xFFFF) := by decide
theorem test_decode_addiu : decode 0x2423FFFF = .instr (.addiu 1 3 0xFFFF) := by decide
theorem test_decode_slti : decode 0x2823FFFF = .instr (.slti 1 3 0xFFFF) := by decide
theorem test_decode_sltiu : decode 0x2C23FFFF = .instr (.sltiu 1 3 0xFFFF) := by decide
theorem test_decode_andi : decode 0x30238001 = .instr (.andi 1 3 0x8001) := by decide
theorem test_decode_ori : decode 0x34238000 = .instr (.ori 1 3 0x8000) := by decide
theorem test_decode_xori : decode 0x3823FFFF = .instr (.xori 1 3 0xFFFF) := by decide
theorem test_decode_lui : decode 0x3C03ABCD = .instr (.lui 3 0xABCD) := by decide

/-! ### Words written out bit by bit from R83, R85 and R91, R92, one for each family -/

theorem test_bits_add : decode 0b00000000001000000001000000100000 = .instr (.add 1 0 2) := by decide
theorem test_bits_msubu : decode 0b00000011111000001010100000011111 = .instr (.msubu 31 21) := by decide
theorem test_bits_nor : decode 0b00000000100010001000000000100111 = .instr (.nor 4 8 16) := by decide
theorem test_bits_sra : decode 0b00000000001000110000011111000011 = .instr (.sra 1 3 31) := by decide
theorem test_bits_movz : decode 0b00000000001000110001000000001010 = .instr (.movz 1 3 2) := by decide
theorem test_bits_ins : decode 0b00000000001000110010001000111110 = .instr (.ins 1 3 8 4) := by decide
theorem test_bits_slti : decode 0b00101010000000011000000000000001 = .instr (.slti 16 1 0x8001) := by decide

/-! ### Invalid words (section 2.1) and the encoder -/

theorem test_invalid_funct : decode 0x00000008 = .invalid .noFunctHandler := by decide
theorem test_invalid_jump : decode 0x0BFFFFFF = .invalid .noJumpHandler := by decide
theorem test_invalid_imm : decode 0x8C220004 = .invalid .noImmHandler := by decide
theorem test_invalid_opcode : decode 0xB0000000 = .invalid .opcodeOutOfRange := by decide
theorem test_ignored_fields : decode 0x002317E0 = decode 0x00231020 := by decide
theorem test_imm_lsb_6 :
    decodeIn { defaultParams with immLsb := 6 } 0x2023FFFF = .instr (.addi 1 3 0x8FFF) := by decide
theorem test_fields_swapped : decodeIn { defaultParams with extInsFields := .posInCSizeInD } 0x0023223D =
    .instr (.ext 1 3 4 8) := by decide
theorem test_encode_add : encode (.add 1 0 2) = 0x00201020 := by decide
theorem test_encode_ext : encode (.ext 1 0 25 3) = 0x00201E7D := by decide
theorem test_encode_lui : encode (.lui 3 0xABCD) = 0x3C03ABCD := by decide
theorem test_table_word : decodeTableWord 32 0x3C000000 = some (.lui 0 0) := by decide

/-! ### One step: the section 2 vectors -/

/-- The reset state with the word at address 0 and x[1], x[2], x[3] set. -/
def start (w : Nat) (x1 x2 x3 : Word) : State :=
  (((State.reset.withFetchWord 32 w).writeReg 1 x1).writeReg 2 x2).writeReg 3 x3

/-- The same with the accumulator set. -/
def startAcc (w : Nat) (x1 x2 hi lo : Word) : State :=
  { start w x1 x2 0 with accHi := hi, accLo := lo }

/-- A view of the state after one step, where there is one. -/
def after (s : State) (view : State → α) : Option α :=
  match step s with
  | .next t => some (view t)
  | .fault _ => none
  | .refused _ => none

theorem test_add_wraps : after (start 0x00231020 0xFFFFFFFF 2 0) (fun t => (t.readReg 3, t.pc)) = some (0x00000001, 4) := by decide
theorem test_add_signed_overflow : after (start 0x00231020 0x7FFFFFFF 1 0) (fun t => (t.readReg 3, t.pc)) = some (0x80000000, 4) := by decide
theorem test_addu : after (start 0x00231021 0x7FFFFFFF 1 0) (fun t => (t.readReg 3, t.pc)) = some (0x80000000, 4) := by decide
theorem test_addi_sign_extends : after (start 0x2023FFFF 5 0 0) (fun t => (t.readReg 3, t.pc)) = some (4, 4) := by decide
theorem test_addi_overflow : after (start 0x20237FFF 0x7FFFFFFF 0 0) (fun t => (t.readReg 3, t.pc)) = some (0x80007FFE, 4) := by decide
theorem test_addiu_zero_extends : after (start 0x2423FFFF 5 0 0) (fun t => (t.readReg 3, t.pc)) = some (0x00010004, 4) := by decide
theorem test_sub : after (start 0x00231022 1 2 0) (fun t => (t.readReg 3, t.pc)) = some (0xFFFFFFFF, 4) := by decide
theorem test_subu : after (start 0x00231023 0x80000000 1 0) (fun t => (t.readReg 3, t.pc)) = some (0x7FFFFFFF, 4) := by decide
theorem test_mul_negative : after (start 0x00231018 0xFFFFFFFF 7 0) (fun t => (t.readReg 3, t.pc)) = some (0xFFFFFFF9, 4) := by decide
theorem test_mul_min : after (start 0x00231018 0x80000000 0xFFFFFFFF 0) (fun t => (t.readReg 3, t.pc)) = some (0x80000000, 4) := by decide
theorem test_and : after (start 0x00231024 0xF0F0 0xFF00 0) (fun t => (t.readReg 3, t.pc)) = some (0x0000F000, 4) := by decide
theorem test_andi : after (start 0x30238001 0xFFFFFFFF 0 0) (fun t => (t.readReg 3, t.pc)) = some (0x00008001, 4) := by decide
theorem test_or : after (start 0x00231025 0xF0F0 0xFF00 0) (fun t => (t.readReg 3, t.pc)) = some (0x0000FFF0, 4) := by decide
theorem test_ori : after (start 0x34238000 1 0 0) (fun t => (t.readReg 3, t.pc)) = some (0x00008001, 4) := by decide
theorem test_xor : after (start 0x00231026 0xF0F0 0xFF00 0) (fun t => (t.readReg 3, t.pc)) = some (0x00000FF0, 4) := by decide
theorem test_xori : after (start 0x3823FFFF 0x12345678 0 0) (fun t => (t.readReg 3, t.pc)) = some (0x1234A987, 4) := by decide
theorem test_nor : after (start 0x00231027 0xF0F0 0xFF00 0) (fun t => (t.readReg 3, t.pc)) = some (0xFFFF000F, 4) := by decide
theorem test_not : after (start 0x00230028 0x0000FFFF 0 0) (fun t => (t.readReg 3, t.pc)) = some (0xFFFF0000, 4) := by decide
theorem test_sll : after (start 0x00230100 0x80000001 0 0) (fun t => (t.readReg 3, t.pc)) = some (0x00000010, 4) := by decide
theorem test_srl : after (start 0x00230102 0x80000010 0 0) (fun t => (t.readReg 3, t.pc)) = some (0x08000001, 4) := by decide
theorem test_sllv_amount_mod_32 : after (start 0x00231004 1 0x21 0) (fun t => (t.readReg 3, t.pc)) = some (2, 4) := by decide
theorem test_srlv : after (start 0x00231006 0x80000000 31 0) (fun t => (t.readReg 3, t.pc)) = some (1, 4) := by decide
theorem test_sra : after (start 0x00230103 0x80000010 0 0) (fun t => (t.readReg 3, t.pc)) = some (0xF8000001, 4) := by decide
theorem test_srav : after (start 0x00231007 0x80000000 31 0) (fun t => (t.readReg 3, t.pc)) = some (0xFFFFFFFF, 4) := by decide
theorem test_rotr : after (start 0x00230101 0x12345678 0 0) (fun t => (t.readReg 3, t.pc)) = some (0x81234567, 4) := by decide
theorem test_rotr_by_31 : after (start 0x002307C1 0x12345678 0 0) (fun t => (t.readReg 3, t.pc)) = some (0x2468ACF0, 4) := by decide
theorem test_rotrv : after (start 0x00231005 0x80000001 0x21 0) (fun t => (t.readReg 3, t.pc)) = some (0xC0000000, 4) := by decide
theorem test_rotrv_by_32 : after (start 0x00231005 0x12345678 32 0) (fun t => (t.readReg 3, t.pc)) = some (0x12345678, 4) := by decide
theorem test_mov : after (start 0x0023000E 0xDEADBEEF 0 0) (fun t => (t.readReg 3, t.pc)) = some (0xDEADBEEF, 4) := by decide
theorem test_movn_moves : after (start 0x0023100B 7 1 9) (fun t => (t.readReg 3, t.pc)) = some (7, 4) := by decide
theorem test_movn_keeps : after (start 0x0023100B 7 0 9) (fun t => (t.readReg 3, t.pc)) = some (9, 4) := by decide
theorem test_movz_moves : after (start 0x0023100A 7 0 9) (fun t => (t.readReg 3, t.pc)) = some (7, 4) := by decide
theorem test_movz_keeps : after (start 0x0023100A 7 5 9) (fun t => (t.readReg 3, t.pc)) = some (9, 4) := by decide
theorem test_negu_is_not : after (start 0x00230029 1 0 0) (fun t => (t.readReg 3, t.pc)) = some (0xFFFFFFFE, 4) := by decide
theorem test_slt_signed : after (start 0x0023102A 0xFFFFFFFF 1 0) (fun t => (t.readReg 3, t.pc)) = some (1, 4) := by decide
theorem test_slt_equal : after (start 0x0023102A 5 5 0) (fun t => (t.readReg 3, t.pc)) = some (0, 4) := by decide
theorem test_sltu_unsigned : after (start 0x0023102B 0xFFFFFFFF 1 0) (fun t => (t.readReg 3, t.pc)) = some (0, 4) := by decide
theorem test_slti : after (start 0x2823FFFF 0xFFFFFFFE 0 0) (fun t => (t.readReg 3, t.pc)) = some (1, 4) := by decide
theorem test_sltiu_zero_extends : after (start 0x2C23FFFF 0xFFFFFFFE 0 0) (fun t => (t.readReg 3, t.pc)) = some (0, 4) := by decide
theorem test_sltiu_below : after (start 0x2C23FFFF 0x1000 0 0) (fun t => (t.readReg 3, t.pc)) = some (1, 4) := by decide
theorem test_seb_masks : after (start 0x00230038 0x123456F0 0 0) (fun t => (t.readReg 3, t.pc)) = some (0x000000F0, 4) := by decide
theorem test_seh_masks : after (start 0x00230039 0x1234F678 0 0) (fun t => (t.readReg 3, t.pc)) = some (0x0000F678, 4) := by decide
theorem test_clo_counts_all : after (start 0x0023003B 0xF000000F 0 0) (fun t => (t.readReg 3, t.pc)) = some (8, 4) := by decide
theorem test_clz_counts_all : after (start 0x0023003C 0x80000000 0 0) (fun t => (t.readReg 3, t.pc)) = some (31, 4) := by decide
theorem test_ext_in_place : after (start 0x0023223D 0x12345678 0 0) (fun t => (t.readReg 3, t.pc)) = some (0x00000600, 4) := by decide
theorem test_ext_past_bit_31 : after (start 0x002347BD 0xFFFFFFFF 0 0) (fun t => (t.readReg 3, t.pc)) = some (0xC0000000, 4) := by decide
theorem test_ins_ors : after (start 0x0023223E 0x0000ABCD 0 0x0F00000F) (fun t => (t.readReg 3, t.pc)) = some (0x0F000D0F, 4) := by decide
theorem test_ins_past_bit_31 : after (start 0x002347BE 0xFF 0 0) (fun t => (t.readReg 3, t.pc)) = some (0xC0000000, 4) := by decide
theorem test_wsbh : after (start 0x0023003A 0x11223344 0 0) (fun t => (t.readReg 3, t.pc)) = some (0x22114433, 4) := by decide
theorem test_lui : after (start 0x3C03ABCD 0 0 0x5555) (fun t => (t.readReg 3, t.pc)) = some (0xABCD0000, 4) := by decide

theorem test_div_toward_zero : after (startAcc 0x0020101A 0xFFFFFFF9 2 0 0) (fun t => (t.accHi, t.accLo)) = some (0xFFFFFFFF, 0xFFFFFFFD) := by decide
theorem test_div_min : after (startAcc 0x0020101A 0x80000000 0xFFFFFFFF 0 0) (fun t => (t.accHi, t.accLo)) = some (0, 0x80000000) := by decide
theorem test_divu : after (startAcc 0x0020101B 0xFFFFFFF9 2 0 0) (fun t => (t.accHi, t.accLo)) = some (0, 0x7FFFFFFC) := by decide
theorem test_madd : after (startAcc 0x0020101C 0xFFFFFFFF 3 0 5) (fun t => (t.accHi, t.accLo)) = some (0, 2) := by decide
theorem test_madd_min : after (startAcc 0x0020101C 0x80000000 0x80000000 0 0) (fun t => (t.accHi, t.accLo)) = some (0x40000000, 0) := by decide
theorem test_maddu : after (startAcc 0x0020101D 0xFFFFFFFF 3 0 5) (fun t => (t.accHi, t.accLo)) = some (3, 2) := by decide
theorem test_maddu_wraps : after (startAcc 0x0020101D 0xFFFFFFFF 0xFFFFFFFF 1 0xFFFFFFFF) (fun t => (t.accHi, t.accLo)) = some (0, 0) := by decide
theorem test_msub : after (startAcc 0x0020101E 0xFFFFFFFF 3 0 5) (fun t => (t.accHi, t.accLo)) = some (0, 8) := by decide
theorem test_msub_min : after (startAcc 0x0020101E 0x80000000 0x7FFFFFFF 0 0) (fun t => (t.accHi, t.accLo)) = some (0x3FFFFFFF, 0x80000000) := by decide
theorem test_msubu : after (startAcc 0x0020101F 0xFFFFFFFF 3 0 5) (fun t => (t.accHi, t.accLo)) = some (0xFFFFFFFD, 8) := by decide

theorem test_add_source_is_destination :
    after (start 0x00210820 0x40000000 0 0) (fun t => t.readReg 1) = some 0x80000000 := by decide

theorem test_ins_source_is_destination :
    after (start 0x0063213E 0 0 0x0000000F) (fun t => t.readReg 3) = some 0x000000FF := by decide

theorem test_add_writes_register_zero :
    after (start 0x00201020 1 2 0) (fun t => (t.readReg 0, t.pc)) = some (3, 4) := by decide

theorem test_div_by_zero_completes : after (start 0x0020001A 7 0 0)
    (fun t => (t.readReg 1, t.pc, t.reports, t.halted, t.draws)) = some (7, 4, [], false, 2) := by decide

theorem test_mul_leaves_the_accumulator :
    after (startAcc 0x00231018 3 5 1 2) (fun t => (t.readReg 3, t.accHi, t.accLo)) = some (15, 1, 2) := by decide

/-! ### The engine: reports, the fetch bound, the reference rotate, the host's calls -/

theorem test_report : after (start 0xFC000000 0 0 0) (fun t => (t.reports, t.pc)) =
    some ([⟨.opcodeOutOfRange, 0, 0xFC000000⟩], 4) := by decide

theorem test_last_word_executes :
    after { State.reset with pc := 0x3FFF8 } (fun t => t.pc) = some 0x3FFFC := by decide

theorem test_fetch_beyond : step { State.reset with pc := 0x3FFFC } =
    .fault (.busRange { State.reset with pc := 0x3FFFC, halted := true }) := rfl

theorem test_bus_low_bits_ignored :
    (busWrite 65535 [] 4 0xAB).bind (fun m => busRead 65535 m 6) = some 0xAB := by decide

theorem test_bus_write_zero_unlists : busWrite 65535 [(4, 0xAB)] 4 0 = some [] := by decide

theorem test_reference_rotate : rotateRef 0x12345678 4 = 0x01234567 := by decide

theorem test_word_of_bytes : wordOfBytes .bigEndian 0x00 0x20 0x10 0x20 = 0x00201020 ∧
    wordOfBytes .littleEndian 0x20 0x10 0x20 0x00 = 0x00201020 := by decide

/-! ### States and operands that meet the hypotheses of the statements, all together -/

/-- After one step over the invalid word 0xFC000000 at address 0 (program P4's first). -/
def afterReport : State :=
  { start 0xFC000000 0 0 0 with pc := 4, reports := [⟨.opcodeOutOfRange, 0, 0xFC000000⟩] }

theorem witness_reset_address : (0x3FFFB : Word).toNat < 4 * defaultParams.memWords := by decide

theorem witness_RunInv : RunInv afterReport ∧ (after afterReport (fun t => t.pc)) = some 8 :=
  ⟨⟨by decide, by decide, by decide, by decide, by decide, by decide⟩, by decide⟩

theorem witness_straight_run_whole : State.reset.halted = false ∧ State.reset.pc.toNat % 4 = 0 ∧
    State.reset.pc.toNat + 4 * 65535 = 0x3FFFC := by decide

theorem witness_straight_run_inside : afterReport.halted = false ∧ afterReport.pc.toNat % 4 = 0 ∧
    afterReport.pc.toNat + 4 * 65533 ≤ 0x3FFFC := by decide

theorem witness_step_runs : (start 0x00231020 1 2 0).halted = false ∧
    busRead 65535 (start 0x00231020 1 2 0).mem (start 0x00231020 1 2 0).pc = some 0x00231020 ∧
    decode 0x00231020 = .instr (.add 1 3 2) ∧
    after (start 0x00231020 1 2 0) (fun t => t.readReg 3) = some 3 := by decide

theorem witness_invalid_kind_1 : (start 0xB0000000 0 0 0).halted = false ∧
    busRead 65535 (start 0xB0000000 0 0 0).mem (start 0xB0000000 0 0 0).pc = some 0xB0000000 ∧
    decode 0xB0000000 = .invalid .opcodeOutOfRange := by decide

theorem witness_invalid_kind_2 : (start 0x04000000 0 0 0).halted = false ∧
    busRead 65535 (start 0x04000000 0 0 0).mem (start 0x04000000 0 0 0).pc = some 0x04000000 ∧
    decode 0x04000000 = .invalid .noJumpHandler := by decide

theorem witness_invalid_kind_3 : (start 0x40000000 0 0 0).halted = false ∧
    busRead 65535 (start 0x40000000 0 0 0).mem (start 0x40000000 0 0 0).pc = some 0x40000000 ∧
    decode 0x40000000 = .invalid .noImmHandler := by decide

theorem witness_invalid_kind_4 : (start 0x0000003F 0 0 0).halted = false ∧
    busRead 65535 (start 0x0000003F 0 0 0).mem (start 0x0000003F 0 0 0).pc = some 0x0000003F ∧
    decode 0x0000003F = .invalid .noFunctHandler := by decide

theorem witness_fetch_beyond : State.halted { State.reset with pc := 0x3FFFC } = false ∧
    0x3FFFC ≤ (State.pc { State.reset with pc := 0x3FFFC }).toNat := by decide

theorem witness_halted : State.halted { State.reset with pc := 0x3FFFC, halted := true } = true := by decide

/-- A step that answers a next state: the hypothesis of every statement about the state after a step. -/
theorem witness_step_next : ∃ t, step State.reset = .next t := ⟨_, rfl⟩

theorem witness_same_fetched_word : busRead 65535 [(8, 1)] State.reset.pc = busRead 65535 State.reset.mem State.reset.pc ∧
    ∃ t, step State.reset = .next t := ⟨by decide, _, rfl⟩

theorem witness_zero_word : State.reset.halted = false ∧
    busRead 65535 State.reset.mem State.reset.pc = some 0 := by decide

theorem witness_div_by_zero : (start 0x0020001A 7 0 0).halted = false ∧
    busRead 65535 (start 0x0020001A 7 0 0).mem (start 0x0020001A 7 0 0).pc = some 0x0020001A ∧
    decode 0x0020001A = .instr (.div 1 0) ∧ (start 0x0020001A 7 0 0).readReg 0 = 0 := by decide

theorem witness_divu_by_zero : (start 0x0020001B 7 0 0).halted = false ∧
    busRead 65535 (start 0x0020001B 7 0 0).mem (start 0x0020001B 7 0 0).pc = some 0x0020001B ∧
    decode 0x0020001B = .instr (.divu 1 0) ∧ (start 0x0020001B 7 0 0).readReg 0 = 0 := by decide

theorem witness_divisor : (start 0 7 2 0).readReg 2 ≠ 0 ∧ (start 0 7 0 0).readReg 2 = 0 := by decide

theorem witness_parameters : defaultParams.wellFormed = true ∧ defaultParams.immLsb = 0 ∧
    Config.Params.wellFormed { defaultParams with extInsFields := .posInCSizeInD, memWords := 1 } = true := by
  decide

theorem witness_exec_next : ∃ t, exec (.add 1 3 2) State.reset = .next t ∧ destReg (.add 1 3 2) ≠ some 4 ∧
    writesAcc (.add 1 3 2) = false := ⟨_, rfl, by decide, by decide⟩

theorem witness_exec_next_acc : ∃ t, exec (.madd 1 2) State.reset = .next t ∧ destReg (.madd 1 2) ≠ some 4 ∧
    writesAcc (.madd 1 2) = true := ⟨_, rfl, by decide, by decide⟩

theorem witness_same_sources :
    (∀ r ∈ sourceRegs (.add 1 3 2), (start 0 1 2 9).readReg r = (start 0 1 2 0).readReg r) ∧
    SameAcc (start 0 1 2 0) (start 0 1 2 9) ∧ (start 0 1 2 9).draws = (start 0 1 2 0).draws :=
  ⟨by decide, ⟨rfl, rfl⟩, rfl⟩

theorem witness_bus_bounds : Memory.wf [] = true ∧ (0x3FFFB : Word).toNat < 4 * defaultParams.memWords ∧
    4 * defaultParams.memWords ≤ (0x3FFFC : Word).toNat := by decide

/-- A bus of one word more than the default (`MEM_WORDS`, U5), with the pc at that word. -/
def wider : Config.Params := { defaultParams with memWords := 65536 }

def atLastWord : State := { State.reset with pc := 0x3FFFC }

/-- The word at 0x3FFFC is on the wider bus for the step, the fetch port and the host alike, and on the default
bus for none of them (R62, U5). -/
theorem test_bound_follows_memWords :
    ibusRangeErrIn wider atLastWord = false ∧ ibusDataIn wider atLastWord = some 0 ∧
    (match clockEdgeIn wider false 0 atLastWord with | .next t => decide (t.pc = 0x40000) | _ => false) = true ∧
    (match hostWriteIn wider 0x3FFFC 7 atLastWord with
      | .next t => decide (ibusDataIn wider t = some 7) | _ => false) = true ∧
    ibusRangeErr atLastWord = true ∧ ibusData atLastWord = none ∧
    hostWrite 0x3FFFC 7 atLastWord = .fault (.hostRange 0x3FFFC) :=
  ⟨by decide, by decide, by decide, by decide, by decide, by decide, rfl⟩

theorem witness_host_write : atLastWord.mem.wf = true ∧ (0x3FFFC : Word).toNat < 4 * wider.memWords ∧
    4 * defaultParams.memWords ≤ (0x3FFFC : Word).toNat ∧ atLastWord.halted = false := by decide

theorem witness_boot : wider.wellFormed = true ∧ defaultParams.wellFormed = true ∧
    ([0xFC000000, 0x00201020] : List Word).length ≤ wider.memWords := by decide

theorem witness_register_index : 32 ≤ 32 := by decide

/-- Parameters with a jump table: opcodes 1 to 7 write `target << 2`, and opcode 7 writes no pc. -/
def jumping : Config.Params :=
  { defaultParams with
    jumpTable := fun op => if op = 7 then some (fun _ _ => none) else some (fun t _ => t.setWidth 32 <<< 2) }

theorem witness_jump_write : (start 0x04000010 0 0 0).halted = false ∧
    busRead jumping.memWords (start 0x04000010 0 0 0).mem (start 0x04000010 0 0 0).pc = some (jumpWord 1 0x10) ∧
    ∃ h, jumping.jumpTable (BitVec.ofNat 6 1) = some h ∧ h 0x10 0 = some 0x40 :=
  ⟨by decide, by decide, _, rfl, by decide⟩

theorem witness_jump_no_write : (start 0x1C000010 0 0 0).halted = false ∧
    busRead jumping.memWords (start 0x1C000010 0 0 0).mem (start 0x1C000010 0 0 0).pc = some (jumpWord 7 0x10) ∧
    ∃ h, jumping.jumpTable (BitVec.ofNat 6 7) = some h ∧ h 0x10 0 = none :=
  ⟨by decide, by decide, _, rfl, by decide⟩

theorem witness_reference : Config.Params.rotrVariant { defaultParams with rotrVariant := .reference } = .reference ∧
    (start 0 0x12345678 0 0).readReg 1 = 0x12345678 := by decide

theorem witness_rotate_amounts : 1 ≤ (1 : Amount).toNat ∧ 1 ≤ (31 : Amount).toNat := by decide

theorem witness_ext_ins : (3 : RegIdx) ≠ 2 ∧ (start 0 0x12345678 0 0).readReg 3 = 0 ∧
    (start 0 0x12345678 0 0).readReg 1 = 0x12345678 := by decide

end Sys2Proof.Tests
end

section
/-! PROOFS. The bus and its bound `MEM_WORDS` (spec R6, R62): a bus write read back, the fetch port against the
clock edge, and a host write against the next fetch. -/

namespace Sys2Proof.Proofs

open Sys2Proof.Machine Sys2Proof.Safety Sys2Proof.Laws

/-! ### The bus after a write -/

/-- The bus's bound at the default parameters, as a byte address (R60, R62). -/
theorem busBound_defaultParams : 4 * defaultParams.memWords = 0x3FFFC := rfl

theorem busWrite_of_lt {words : Nat} {m : Memory} {addr v : Word} (h : addr.toNat < 4 * words) :
    busWrite words m addr v = some (m.writeWord (addr.toNat / 4) v) :=
  busWrite_eq_some.mpr ⟨h, rfl⟩

theorem busWrite_eq_none {words : Nat} {m : Memory} {addr v : Word} :
    busWrite words m addr v = none ↔ 4 * words ≤ addr.toNat := by
  rw [busWrite_eq]; split_ifs with h <;> simp <;> omega

/-- What any address reads after the word of a valid address was written. The bound is a multiple of 4, so an
address with the same word index is valid too. -/
theorem busRead_writeWord {words : Nat} {m : Memory} {addr : Word} (hm : m.wf = true)
    (ha : addr.toNat < 4 * words) (v b : Word) :
    busRead words (m.writeWord (addr.toNat / 4) v) b =
      if b.toNat / 4 = addr.toNat / 4 then some v else busRead words m b := by
  rw [busRead_eq, readWord_writeWord hm, busRead_eq]
  by_cases hk : b.toNat / 4 = addr.toNat / 4
  · have hb : b.toNat < 4 * words := by omega
    rw [if_pos hb, if_pos hk, if_pos hk]
  · rw [if_neg hk, if_neg hk]

/-- Settles O25: the word written is the one word that reads differently, and read and write share one bound. -/
theorem busWriteIsReadBack : Obligations.BusWriteIsReadBack := by
  refine ⟨fun words m addr v hm => ⟨fun ha => ?_, fun ha => ?_⟩, busBound_defaultParams⟩
  · exact ⟨_, busWrite_of_lt ha, wf_writeWord hm _ _, busRead_writeWord hm ha v⟩
  · exact ⟨busWrite_eq_none.mpr ha, busRead_eq_none.mpr ha⟩

/-! ### What no meaning writes, and that each completes (R120, R264) -/

theorem sameEngine_writeReg (s : State) (b : RegIdx) (v : Word) : SameEngine s (s.writeReg b v) :=
  ⟨rfl, rfl, rfl, rfl, fun _ => rfl⟩

theorem sameEngine_setAcc64 (s : State) (w : DWord) : SameEngine s (s.setAcc64 w) :=
  ⟨rfl, rfl, rfl, rfl, fun _ => rfl⟩

/-- A rotation writes its destination and at most the draw counter, under either variant. -/
theorem sameEngine_writeRotated (variant : Config.RotrVariant) (s : State) (b : RegIdx) (v : Word) (n : Nat) :
    SameEngine s (s.writeRotated variant b v n) := by
  cases variant with
  | rotate => exact sameEngine_writeReg s b _
  | reference =>
    by_cases hn : n = 1
    · rw [hn, writeRotated_reference_one]; exact sameEngine_writeReg s.afterDraw b _
    · rw [writeRotated_reference_of_ne s b v hn]; exact sameEngine_writeReg s b _

theorem exec_completes (i : Instr) (s : State) : ∃ t, exec i s = .next t ∧ SameEngine s t := by
  cases exec_effect i s with
  | nothing _ _ _ he => exact ⟨_, he, sameEngine_refl s⟩
  | reg b v _ _ he => exact ⟨_, he, sameEngine_writeReg s b v⟩
  | acc w _ _ he => exact ⟨_, he, sameEngine_setAcc64 s w⟩
  | drawn _ _ he => exact ⟨_, he, sameEngine_drawAcc s⟩

/-- All that the parameters can change of a meaning: a rotation goes by `ROTR_VARIANT` (R196 to R198), every
other instruction is as at the defaults. -/
theorem execIn_cases (p : Config.Params) (i : Instr) (s : State) :
    (∃ b v n, execIn p i s = .next (s.writeRotated p.rotrVariant b v n)) ∨ execIn p i s = exec i s := by
  cases i
  case rotr => exact .inl ⟨_, _, _, rfl⟩
  case rotrv => exact .inl ⟨_, _, _, rfl⟩
  all_goals exact .inr rfl

theorem execIn_completes (p : Config.Params) (i : Instr) (s : State) :
    ∃ t, execIn p i s = .next t ∧ SameEngine s t := by
  obtain ⟨b, v, n, he⟩ | he := execIn_cases p i s
  · exact ⟨_, he, sameEngine_writeRotated _ s b v n⟩
  · rw [he]; exact exec_completes i s

/-- A jump handler may write the pc and nothing else (R252). -/
theorem runJump_halted (p : Config.Params) (op : BitVec 6) (target : Target) (s : State) :
    (runJump p op target s).halted = s.halted := by
  cases hj : p.jumpTable op with
  | none => simp [runJump, hj]
  | some handler =>
    cases hv : handler target s.pc with
    | none => rw [runJump_of_no_write hj hv]
    | some v => rw [runJump_of_write hj hv]

/-- Whatever word was fetched, running it answers a next state and leaves the halt flag (R46). -/
theorem dispatchWord_execIn_completes (p : Config.Params) (w : Word) (s : State) :
    ∃ t, dispatchWord p (execIn p) w s = .next t ∧ t.halted = s.halted := by
  cases hd : decodeIn p w with
  | instr i =>
    obtain ⟨t, ht, -, -, -, hh, -⟩ := execIn_completes p i s
    exact ⟨t, (dispatchWord_of_instr hd).trans ht, hh⟩
  | jump op target => exact ⟨_, dispatchWord_of_jump hd, runJump_halted p op target s⟩
  | invalid kind => exact ⟨_, dispatchWord_of_invalid hd, report_halted s kind w⟩

/-! ### The fetch port and the clock edge -/

theorem clockEdgeIn_of_rangeErr {p : Config.Params} {s : State} (n : Word) (hh : s.halted = false)
    (he : ibusRangeErrIn p s = true) :
    clockEdgeIn p false n s = .fault (.busRange s.haltedByBusRange) :=
  cycle_of_beyond hh (ibusDataIn_eq_none.mpr he)

theorem clockEdgeIn_of_fetched {p : Config.Params} {s : State} (n : Word) (hh : s.halted = false)
    (he : ibusRangeErrIn p s = false) :
    ∃ w t, ibusDataIn p s = some w ∧ dispatchWord p (execIn p) w s = .next t ∧
      clockEdgeIn p false n s = .next t.advancePc ∧ t.halted = false := by
  have hdata : ibusDataIn p s ≠ none := fun h => by simp [ibusDataIn_eq_none.mp h] at he
  obtain ⟨w, hw⟩ := Option.ne_none_iff_exists'.mp hdata
  obtain ⟨t, ht, hth⟩ := dispatchWord_execIn_completes p w s
  have hedge : clockEdgeIn p false n s = advance (dispatchWord p (execIn p) w s) := cycle_of_fetched hh hw
  exact ⟨w, t, hw, ht, by rw [hedge, ht, advance_next], hth.trans hh⟩

/-- Settles O27: the port and the edge read the bus at the same address, and a fetched word always runs. -/
theorem fetchPortBoundIsTheStepsBound : Obligations.FetchPortBoundIsTheStepsBound :=
  ⟨fun _ _ n => ⟨ibusRangeErrIn_iff, ibusDataIn_eq_none, clockEdgeIn_of_rangeErr n, clockEdgeIn_of_fetched n⟩,
    busBound_defaultParams, fun _ n => clockEdge_step n⟩

/-! ### A host write and the next fetch -/

theorem hostWriteIn_of_lt {p : Config.Params} {addr : Word} (v : Word) (s : State)
    (h : addr.toNat < 4 * p.memWords) :
    hostWriteIn p addr v s = .next { s with mem := s.mem.writeWord (addr.toNat / 4) v } := by
  rw [hostWriteIn_eq, if_pos h]

/-- Settles O28: the host's read and the fetch see the one bus that `busRead_writeWord` speaks of. -/
theorem hostWriteIsSeenByTheNextFetch : Obligations.HostWriteIsSeenByTheNextFetch := by
  intro p s addr v hm
  refine ⟨fun ha => ⟨_, hostWriteIn_of_lt v s ha, rfl, wf_writeWord hm _ _, ?_, ?_⟩, fun ha => ⟨?_, ?_⟩⟩
  · rw [hostReadIn_eq, if_pos ha, readWord_writeWord_self hm]
  · exact busRead_writeWord hm ha v s.pc
  · rw [hostWriteIn_eq, if_neg (Nat.not_lt.mpr ha)]
  · rw [hostReadIn_eq, if_neg (Nat.not_lt.mpr ha)]

end Sys2Proof.Proofs
end

section
/-! PROOFS. The state of the CORE (spec 10_state.md): what reset leaves, what one step may write of the engine's
own state and what it may read of it, the invariant of a running CORE, and what one instruction writes and
reads of the registers and the accumulator pair. -/

namespace Sys2Proof.Proofs

open Sys2Proof.Machine Sys2Proof.Safety Sys2Proof.Laws

/-! ### The report a word draws (R95, R118) -/

/-- The report the step that fetches `w` at `pc` appends, where `w` is invalid (R118, R261). -/
def wordReport (pc w : Word) : Option Report :=
  match decode w with
  | .invalid kind => some ⟨kind, pc, w⟩
  | _ => none

theorem wordReport_of_invalid {w : Word} {k : InvalidKind} (pc : Word) (hd : decode w = .invalid k) :
    wordReport pc w = some ⟨k, pc, w⟩ := by
  simp [wordReport, hd]

theorem wordReport_of_instr {w : Word} {i : Instr} (pc : Word) (hd : decode w = .instr i) :
    wordReport pc w = none := by
  simp [wordReport, hd]

theorem wordReport_isSome (pc w : Word) : (wordReport pc w).isSome = true ↔ ∃ k, decode w = .invalid k := by
  cases hd : decode w <;> simp [wordReport, hd]

theorem reportAt_eq_wordReport (m : Memory) (k : Nat) :
    reportAt m k = wordReport (BitVec.ofNat 32 (4 * k)) (m.readWord k) := rfl

/-- The reports over one word more: those before it, and its own. -/
theorem reportsOver_succ (m : Memory) (k n : Nat) :
    reportsOver m k (n + 1) = reportsOver m k n ++ (reportAt m (k + n)).toList := by
  rw [reportsOver, List.range'_1_concat, List.filterMap_append, reportsOver]
  cases h : reportAt m (k + n) <;> simp [h]

/-! ### What one step does to the engine's own state -/

theorem exec_mem {i : Instr} {s u : State} (he : exec i s = .next u) : u.mem = s.mem := by
  cases exec_effect i s with
  | nothing _ _ _ h => cases h.symm.trans he; rfl
  | reg _ _ _ _ h => cases h.symm.trans he; rfl
  | acc _ _ _ h => cases h.symm.trans he; rfl
  | drawn _ _ h => cases h.symm.trans he; rfl

theorem exec_sameEngine {i : Instr} {s u : State} (he : exec i s = .next u) : SameEngine s u := by
  obtain ⟨v, hv, hs⟩ := exec_completes i s
  cases hv.symm.trans he
  exact hs

/-- What a step from `s` to `t` over the fetched word `w` does to all state that no instruction writes: the pc
moves on by 4, the report of `w` is appended, and the rest stays. -/
structure StepsOver (w : Word) (s t : State) : Prop where
  fetched : busRead 65535 s.mem s.pc = some w
  running : s.halted = false
  pc : t.pc = s.pc + 4
  pb : t.pb = s.pb
  reports : t.reports = s.reports ++ (wordReport s.pc w).toList
  halted : t.halted = false
  mem : t.mem = s.mem

/-- Every step that answers a next state fetched a word and steps over it. -/
theorem step_stepsOver {s t : State} (h : step s = .next t) : ∃ w, StepsOver w s t := by
  obtain ⟨hh, w, hf, ⟨i, u, hd, he, rfl⟩ | ⟨k, hd, rfl⟩⟩ := step_eq_next h
  · obtain ⟨hpc, hpb, hrep, hhalt, -⟩ := exec_sameEngine he
    exact ⟨w, hf, hh, congrArg (· + 4) hpc, hpb, by simp [wordReport_of_instr s.pc hd, hrep],
      hhalt.trans hh, (advancePc_mem u).trans (exec_mem he)⟩
  · exact ⟨w, hf, hh, rfl, rfl, by simp [wordReport_of_invalid s.pc hd], hh, rfl⟩

/-- Settles O9: of the pc a step does nothing but the advance. -/
theorem pcAdvancesByFourOnly : Obligations.PcAdvancesByFourOnly := by
  intro s t h
  obtain ⟨w, hw⟩ := step_stepsOver h
  rw [hw.pc, BitVec.toNat_add]
  rfl

/-- Settles O10: the bus is not even written back, so no byte of it can differ. -/
theorem stepNeverWritesBusOrProgramBreak : Obligations.StepNeverWritesBusOrProgramBreak := by
  intro s t h
  obtain ⟨w, hw⟩ := step_stepsOver h
  exact ⟨fun addr => by rw [hw.mem], hw.pb, hw.running, hw.halted⟩

/-- The report signals of a step show the report of the word it fetched (R49, R261). -/
theorem StepsOver.invalidReport_eq {w : Word} {s t : State} (hw : StepsOver w s t) :
    invalidReport s t = wordReport s.pc w := by
  rw [invalidReport, hw.reports]
  cases wordReport s.pc w <;> simp

/-- Settles O16: the signal is high where the fetched word draws a report. -/
theorem invalidOpSignalMarksInvalidWords : Obligations.InvalidOpSignalMarksInvalidWords := by
  intro s t h
  obtain ⟨w, hw⟩ := step_stepsOver h
  refine ⟨w, hw.fetched, ?_⟩
  rw [invalidOp, hw.invalidReport_eq, wordReport_isSome]

/-! ### The invariant of a running CORE -/

/-- At a word-aligned pc the word fetched is the word of index `pc / 4`, and its report that of the index. -/
theorem StepsOver.wordReport_eq {w : Word} {s t : State} (hw : StepsOver w s t) (ha : s.pc.toNat % 4 = 0) :
    wordReport s.pc w = reportAt s.mem (s.pc.toNat / 4) := by
  obtain ⟨-, hword⟩ := busRead_eq_some.mp hw.fetched
  have hpc : BitVec.ofNat 32 (4 * (s.pc.toNat / 4)) = s.pc := by
    rw [Nat.mul_div_cancel' (Nat.dvd_of_mod_eq_zero ha), BitVec.ofNat_toNat, BitVec.setWidth_eq]
  rw [reportAt_eq_wordReport, hpc, hword]

/-- Settles O3: the bound of the fetch keeps the advanced pc on or just past the last word, and the one report a
step appends is that of the one word the range below the pc gains. -/
theorem stepKeepsRunInv : Obligations.StepKeepsRunInv := by
  rintro s t ⟨hwf, hbus, halign, -, -, hrep⟩ h
  obtain ⟨w, hw⟩ := step_stepsOver h
  obtain ⟨hlt, -⟩ := busRead_eq_some.mp hw.fetched
  have hpc : t.pc.toNat = s.pc.toNat + 4 := by
    rw [pcAdvancesByFourOnly s t h]; omega
  have hindex : t.pc.toNat / 4 = s.pc.toNat / 4 + 1 := by omega
  refine ⟨hw.mem ▸ hwf, hw.mem ▸ hbus, by omega, by omega, hw.halted, ?_⟩
  rw [hw.reports, hw.mem, hindex, reportsOver_succ, Nat.zero_add, hrep, hw.wordReport_eq halign]

/-- Settles O2: no word lies below the pc 0, and no report was made. -/
theorem runInvHoldsAtReset : Obligations.RunInvHoldsAtReset := fun n =>
  ⟨wf_resetWith n, inBus_resetWith 65535 n, rfl, Nat.zero_le _, rfl, by simp [reportsOver, State.resetWith]⟩

/-! ### What two runs of an instruction have in common -/

/-- The effects of an instruction in two states that agree on its source registers: of one shape, with one value
for the destination register, and with one value for the accumulator pair where the pairs agreed. -/
inductive JointEffect (i : Instr) (s s' : State) : Prop where
  | nothing (he : exec i s = .next s) (he' : exec i s' = .next s')
  | reg (b : RegIdx) (v : Word)
      (he : exec i s = .next (s.writeReg b v)) (he' : exec i s' = .next (s'.writeReg b v))
  | acc (w w' : DWord) (hw : s'.acc64 = s.acc64 → w' = w)
      (he : exec i s = .next (s.setAcc64 w)) (he' : exec i s' = .next (s'.setAcc64 w'))
  | drawn (he : exec i s = .next s.drawAcc) (he' : exec i s' = .next s'.drawAcc)

/-- An instruction sees of the registers no more than its sources (R34). -/
theorem exec_jointEffect (i : Instr) (s s' : State) (h : ∀ r ∈ sourceRegs i, s'.readReg r = s.readReg r) :
    JointEffect i s s' := by
  cases i
  case lui => exact .reg _ _ rfl rfl
  all_goals
    simp only [sourceRegs, List.forall_mem_cons, List.not_mem_nil, false_imp_iff, implies_true, and_true] at h
  case div a c =>
    obtain ⟨ha, hc⟩ := h
    by_cases h0 : s.readReg c = 0
    · exact .drawn (execDiv_of_zero a h0) (execDiv_of_zero a (hc.trans h0))
    · exact .acc _ _ (fun _ => by rw [ha, hc]) (execDiv_of_ne_zero a h0) (execDiv_of_ne_zero a (hc ▸ h0))
  case divu a c =>
    obtain ⟨ha, hc⟩ := h
    by_cases h0 : s.readReg c = 0
    · exact .drawn (execDivu_of_zero a h0) (execDivu_of_zero a (hc.trans h0))
    · exact .acc _ _ (fun _ => by rw [ha, hc]) (execDivu_of_ne_zero a h0) (execDivu_of_ne_zero a (hc ▸ h0))
  case madd | maddu | msub | msubu =>
    obtain ⟨ha, hc⟩ := h
    exact .acc _ _ (fun hacc => by rw [hacc, ha, hc]) rfl rfl
  case movn a b c =>
    obtain ⟨ha, hc⟩ := h
    by_cases h0 : s.readReg c = 0
    · exact .nothing (execMovn_of_zero a b h0) (execMovn_of_zero a b (hc.trans h0))
    · exact .reg b _ (execMovn_of_ne_zero a b h0) (ha ▸ execMovn_of_ne_zero a b (hc ▸ h0))
  case movz a b c =>
    obtain ⟨ha, hc⟩ := h
    by_cases h0 : s.readReg c = 0
    · exact .reg b _ (execMovz_of_zero a b h0) (ha ▸ execMovz_of_zero a b (hc.trans h0))
    · exact .nothing (execMovz_of_ne_zero a b h0) (execMovz_of_ne_zero a b (hc ▸ h0))
  -- every other meaning writes one register with a value of the sources alone
  all_goals
    refine .reg _ _ (he' := rfl) ?_
    simp only [h]
    rfl

/-! ### What a step reads of the engine's own state -/

/-- `s` with another program break, report log and bus. -/
def withOutside (s : State) (pb : Word) (reports : List Report) (mem : Memory) : State :=
  { s with pb := pb, reports := reports, mem := mem }

/-- No meaning reads the program break, the report log or the bus. -/
theorem exec_withOutside {i : Instr} {s u : State} (he : exec i s = .next u) (pb : Word)
    (reports : List Report) (mem : Memory) :
    exec i (withOutside s pb reports mem) = .next (withOutside u pb reports mem) := by
  cases exec_jointEffect i s (withOutside s pb reports mem) (fun _ _ => rfl) with
  | nothing h h' => cases h.symm.trans he; exact h'
  | reg b v h h' => cases h.symm.trans he; exact h'
  | acc w w' hw h h' => cases h.symm.trans he; cases hw rfl; exact h'
  | drawn h h' => cases h.symm.trans he; exact h'

theorem step_of_instr {s u : State} {w : Word} {i : Instr} (hh : s.halted = false)
    (hf : busRead 65535 s.mem s.pc = some w) (hd : decode w = .instr i) (he : exec i s = .next u) :
    step s = .next u.advancePc := by
  rw [step, cycle_of_fetched hh hf, dispatchWord_of_instr hd, he, advance_next]

theorem step_of_invalid {s : State} {w : Word} {k : InvalidKind} (hh : s.halted = false)
    (hf : busRead 65535 s.mem s.pc = some w) (hd : decode w = .invalid k) :
    step s = .next (s.report k w).advancePc := by
  rw [step, cycle_of_fetched hh hf, dispatchWord_of_invalid hd, advance_next]

/-- A step under another program break, report log and bus that gives the same word at the pc: the same step, with
the same report appended to the other log. -/
theorem step_withOutside {s t : State} {w : Word} {mem : Memory} (h : step s = .next t)
    (hf : busRead 65535 s.mem s.pc = some w) (hf' : busRead 65535 mem s.pc = some w) (pb : Word)
    (reports : List Report) :
    step (withOutside s pb reports mem) =
      .next (withOutside t pb (reports ++ (wordReport s.pc w).toList) mem) := by
  obtain ⟨hh, w', hw', hcase⟩ := step_eq_next h
  cases hf.symm.trans hw'
  obtain ⟨i, u, hd, he, rfl⟩ | ⟨k, hd, rfl⟩ := hcase
  · rw [step_of_instr (s := withOutside s pb reports mem) hh hf' hd (exec_withOutside he pb reports mem),
      wordReport_of_instr s.pc hd, Option.toList_none, List.append_nil]
    rfl
  · rw [step_of_invalid (s := withOutside s pb reports mem) hh hf' hd, wordReport_of_invalid s.pc hd]
    rfl

/-- Settles O11: the step with the other program break fetches the same word. -/
theorem programBreakAffectsNothing : Obligations.ProgramBreakAffectsNothing := by
  intro s t v h
  obtain ⟨w, hw⟩ := step_stepsOver h
  refine (step_withOutside h hw.fetched hw.fetched v s.reports).trans ?_
  rw [← hw.reports, ← hw.mem]
  rfl

/-- Settles O12: the report appended is that of the fetched word, whatever the log before it. -/
theorem reportLogIsAppendedAndNeverRead : Obligations.ReportLogIsAppendedAndNeverRead := by
  intro s t rs h
  obtain ⟨w, hw⟩ := step_stepsOver h
  refine ⟨(wordReport s.pc w).toList, Option.length_toList_le, hw.reports, ?_⟩
  refine (step_withOutside h hw.fetched hw.fetched s.pb rs).trans ?_
  rw [← hw.pb, ← hw.mem]
  rfl

/-! ### What an instruction writes and reads -/

/-- Settles O21: each of the four effects writes the destination alone, or the accumulator pair alone. -/
theorem instructionWritesOnlyItsDestination : Obligations.InstructionWritesOnlyItsDestination := by
  intro i s t h
  cases exec_effect i s with
  | nothing b hb hw he =>
    cases he.symm.trans h
    exact ⟨fun _ _ => rfl, fun _ => ⟨⟨rfl, rfl⟩, rfl⟩, by simp [hw]⟩
  | reg b v hb hw he =>
    cases he.symm.trans h
    refine ⟨fun r hr => readReg_writeReg_of_ne s ?_ v, fun _ => ⟨⟨rfl, rfl⟩, rfl⟩, by simp [hw]⟩
    rintro rfl
    exact hr hb
  | acc w hb hw he =>
    cases he.symm.trans h
    exact ⟨fun _ _ => rfl, by simp [hw], fun _ => hb⟩
  | drawn hb hw he =>
    cases he.symm.trans h
    exact ⟨fun _ _ => rfl, by simp [hw], fun _ => hb⟩

theorem sourceRegs_length_le (i : Instr) : (sourceRegs i).length ≤ 2 := by
  cases i <;> simp [sourceRegs]

/-- Settles O22: two runs that agree on the sources have one joint effect. -/
theorem instructionReadsOnlyItsSources : Obligations.InstructionReadsOnlyItsSources := by
  refine fun i s s' => ⟨sourceRegs_length_le i, fun h => ?_⟩
  cases exec_jointEffect i s s' h with
  | nothing he he' => exact ⟨s, s', he, he', fun _ => .inl ⟨rfl, rfl⟩, fun hacc _ => hacc⟩
  | reg b v he he' =>
    refine ⟨_, _, he, he', fun r => ?_, fun hacc _ => hacc⟩
    by_cases hr : r = b
    · right; rw [hr, readReg_writeReg_self, readReg_writeReg_self]
    · left; exact ⟨readReg_writeReg_of_ne s hr v, readReg_writeReg_of_ne s' hr v⟩
  | acc w w' hw he he' =>
    refine ⟨_, _, he, he', fun _ => .inl ⟨rfl, rfl⟩, fun ⟨hhi, hlo⟩ _ => ?_⟩
    rw [hw (by rw [State.acc64, hhi, hlo, State.acc64])]
    exact ⟨rfl, rfl⟩
  | drawn he he' =>
    refine ⟨_, _, he, he', fun _ => .inl ⟨rfl, rfl⟩, fun _ hdraws => ?_⟩
    simp [SameAcc, hdraws]

/-- Settles O23: the two runs agree on every register, so the joint effect writes one value in both. -/
theorem accumulatorNeverReachesARegister : Obligations.AccumulatorNeverReachesARegister := by
  intro i s hi lo
  cases exec_jointEffect i s { s with accHi := hi, accLo := lo } (fun _ _ => rfl) with
  | nothing he he' => exact ⟨_, _, he, he', fun _ => rfl⟩
  | reg b v he he' => exact ⟨_, _, he, he', fun _ => rfl⟩
  | acc w w' _ he he' => exact ⟨_, _, he, he', fun _ => rfl⟩
  | drawn he he' => exact ⟨_, _, he, he', fun _ => rfl⟩

/-- Settles O24: the value `lui` wrote to register 0 is what `mov` and `addi` read there, and the addition of 1
does not carry out of bit 31, because the low half of that value is 0. -/
theorem registerZeroIsOrdinary : Obligations.RegisterZeroIsOrdinary := by
  intro imm b s
  have hlui : (s.writeReg 0 (upperImm imm)).readReg 0 = upperImm imm := readReg_writeReg_self s 0 _
  have hone : (sextImm 1).toNat = 1 := by decide
  have hlt := imm.isLt
  refine ⟨_, _, _, rfl, rfl, ?_, ?_, rfl, ?_⟩
  · rw [readReg_writeReg, hlui, ite_self, upperImm_toNat]
  · rw [readReg_writeReg_self, hlui, upperImm_toNat]
  · rw [readReg_writeReg_self, readReg_writeReg, hlui, ite_self, BitVec.toNat_add, hone, upperImm_toNat]
    omega

/-! ### Reset, and the register port -/

theorem readReg_resetWith (n : Word) (r : RegIdx) : (State.resetWith n).readReg r = 0 :=
  Vector.getElem_replicate _

/-- Settles O1: reset looks at neither the old state nor the parameters. -/
theorem resetLeavesTheSpecValues : Obligations.ResetLeavesTheSpecValues := by
  intro p n s
  refine ⟨State.resetWith n, clockEdgeIn_rst n, rfl, readReg_resetWith n, rfl, rfl, rfl, rfl, rfl, rfl,
    fun addr h => ?_⟩
  exact busRead_eq_some.mpr ⟨h, readWord_nil _⟩

/-- Settles O29: a 5-bit index is below 32, the bound `read_register` checks. -/
theorem readRegisterCallAndPort : Obligations.ReadRegisterCallAndPort := fun _ =>
  ⟨fun r => ⟨dif_pos r.isLt, rfl⟩, fun _ hi => dif_neg (Nat.not_lt.mpr hi)⟩

end Sys2Proof.Proofs
end

section
/-! PROOFS. The bus as the CORE sees it (spec 20_memory.md): the fetch is the CORE's only access to it (R65, R68,
R71). -/

namespace Sys2Proof.Proofs

open Sys2Proof.Machine Sys2Proof.Safety Sys2Proof.Laws

/-- Settles O13: the other bus gives the step the same word to fetch, and that word is all a step reads of a bus. -/
theorem stepSeesOnlyTheFetchedWord : Obligations.StepSeesOnlyTheFetchedWord := by
  intro s t m hsame h
  obtain ⟨w, hw⟩ := step_stepsOver h
  have hf' : busRead 65535 m s.pc = some w := hsame.trans hw.fetched
  refine (step_withOutside h hw.fetched hf' s.pb s.reports).trans ?_
  rw [← hw.reports, ← hw.pb]
  rfl

end Sys2Proof.Proofs
end

section
/-! PROOFS. Encoding and decoding (spec 30_encoding.md): the decoder inverts the encoder, the invalid words by
kind, the all-zero word, and the words the spec writes out. -/

namespace Sys2Proof.Proofs

open Sys2Proof.Config Sys2Proof.Machine Sys2Proof.Safety Sys2Proof.Laws

/-! ### The decoder inverts the encoder (R97, R98) -/

/-- Every instruction is encoded in one of two forms, from fields that the handler with the encoded code turns
back into the instruction (R86, R87, R98). -/
theorem encodeIn_cases (p : Params) (i : Instr) :
    (∃ o a b c d, encodeIn p i = wordR (p.functCode o) a b c d ∧ regInstr p.extInsFields o a b c d = i) ∨
    (∃ o a b imm, encodeIn p i = wordI (p.immOpcode o) a b imm ∧ immInstr o a b imm = i) := by
  cases i
  case addi | addiu | slti | sltiu | andi | ori | xori | lui => exact .inr ⟨_, _, _, _, rfl, rfl⟩
  -- `pos` and `size` go to fields C and D and come back by `EXTINS_FIELDS` (R90)
  case ext | ins => exact .inl ⟨_, _, _, _, _, rfl, by simp [regInstr]⟩
  all_goals exact .inl ⟨_, _, _, _, _, rfl, rfl⟩

theorem decodeIn_encodeIn {p : Params} (hp : p.wellFormed = true) (hl : p.immLsb = 0) (i : Instr) :
    decodeIn p (encodeIn p i) = .instr i := by
  simp only [Params.wellFormed, Bool.and_eq_true] at hp
  obtain ⟨⟨⟨⟨hfunct, himm⟩, hrange⟩, -⟩, -⟩ := hp
  obtain ⟨o, a, b, c, d, hw, hi⟩ | ⟨o, a, b, imm, hw, hi⟩ := encodeIn_cases p i
  · rw [hw, decodeIn_wordR hfunct, hi]
  · rw [hw, decodeIn_wordI himm hrange hl, hi]

/-- Settles O17: distinct codes in range make each table lookup find the operation encoded. -/
theorem decodeInvertsEncode : Obligations.DecodeInvertsEncode :=
  ⟨fun _ hp hl => decodeIn_encodeIn hp hl, decodeIn_encodeIn wellFormed_defaultParams rfl⟩

/-! ### What a word decodes to, by its `op` and `func` as numbers (R82, R91 to R95) -/

theorem opField_toNat (w : Word) : (opField w).toNat = w.toNat / 2 ^ 26 := by
  have := w.isLt
  simp only [opField, BitVec.extractLsb'_toNat, Nat.shiftRight_eq_div_pow]
  omega

theorem funcField_toNat (w : Word) : (funcField w).toNat = w.toNat % 64 := by
  simp [funcField, BitVec.extractLsb'_toNat]

/-- The default register-form table has no entry exactly for the 27 unassigned codes (R91). -/
theorem regOpOf_defaultParams_eq_none (f : BitVec 6) :
    regOpOf defaultParams f = none ↔ f.toNat ∈ unassignedFuncts := by
  revert f; decide

/-- The default immediate-form table has entries exactly for the opcodes 8 to 15 (R92). -/
theorem immOpOf_defaultParams_isSome (op : BitVec 6) :
    (immOpOf defaultParams op).isSome = true ↔ 8 ≤ op.toNat ∧ op.toNat ≤ 15 := by
  revert op; decide

section ByOp

variable {w : Word}

theorem decode_of_op_zero (h : w.toNat / 2 ^ 26 = 0) : decode w = decodeReg defaultParams w :=
  decodeIn_of_reg (BitVec.eq_of_toNat_eq ((opField_toNat w).trans h))

theorem decode_of_unassigned_func (h : w.toNat / 2 ^ 26 = 0) (hf : w.toNat % 64 ∈ unassignedFuncts) :
    decode w = .invalid .noFunctHandler := by
  rw [← funcField_toNat, ← regOpOf_defaultParams_eq_none] at hf
  rw [decode_of_op_zero h, decodeReg, hf]

theorem decode_of_assigned_func (h : w.toNat / 2 ^ 26 = 0) (hf : w.toNat % 64 ∉ unassignedFuncts) :
    ∃ i, decode w = .instr i := by
  rw [← funcField_toNat, ← regOpOf_defaultParams_eq_none] at hf
  obtain ⟨o, ho⟩ := Option.ne_none_iff_exists'.mp hf
  rw [decode_of_op_zero h, decodeReg, ho]
  exact ⟨_, rfl⟩

/-- The default jump table is empty (R93). -/
theorem decode_of_op_jump (h1 : 1 ≤ w.toNat / 2 ^ 26) (h7 : w.toNat / 2 ^ 26 ≤ 7) :
    decode w = .invalid .noJumpHandler := by
  rw [← opField_toNat] at h1 h7
  exact decodeIn_of_jump h1 h7

theorem decode_of_op_imm (h8 : 8 ≤ w.toNat / 2 ^ 26) (h43 : w.toNat / 2 ^ 26 ≤ 43) :
    decode w = decodeImm defaultParams w := by
  rw [← opField_toNat] at h8 h43
  exact decodeIn_of_imm h8 h43

theorem decode_of_assigned_op (h8 : 8 ≤ w.toNat / 2 ^ 26) (h15 : w.toNat / 2 ^ 26 ≤ 15) :
    ∃ i, decode w = .instr i := by
  have hsome : (immOpOf defaultParams (opField w)).isSome = true := by
    rw [immOpOf_defaultParams_isSome, opField_toNat]; exact ⟨h8, h15⟩
  obtain ⟨o, ho⟩ := Option.isSome_iff_exists.mp hsome
  rw [decode_of_op_imm h8 (by omega), decodeImm, ho]
  exact ⟨_, rfl⟩

theorem decode_of_unassigned_op (h16 : 16 ≤ w.toNat / 2 ^ 26) (h43 : w.toNat / 2 ^ 26 ≤ 43) :
    decode w = .invalid .noImmHandler := by
  have hnone : immOpOf defaultParams (opField w) = none := by
    rw [← Option.not_isSome_iff_eq_none, immOpOf_defaultParams_isSome, opField_toNat]; omega
  rw [decode_of_op_imm (by omega) h43, decodeImm, hnone]

theorem decode_of_op_beyond (h : 44 ≤ w.toNat / 2 ^ 26) : decode w = .invalid .opcodeOutOfRange := by
  rw [← opField_toNat] at h
  exact decodeIn_of_beyond h

end ByOp

/-- Settles O18: the six classes of `op` and `func` cover every word and have no word in common, and what the
words of each decode to differs from class to class but for the two classes of instructions. -/
theorem invalidWordsByKind : Obligations.InvalidWordsByKind := by
  intro w
  have hclass : w.toNat / 2 ^ 26 = 0 ∨ (1 ≤ w.toNat / 2 ^ 26 ∧ w.toNat / 2 ^ 26 ≤ 7) ∨
      (8 ≤ w.toNat / 2 ^ 26 ∧ w.toNat / 2 ^ 26 ≤ 15) ∨ (16 ≤ w.toNat / 2 ^ 26 ∧ w.toNat / 2 ^ 26 ≤ 43) ∨
      44 ≤ w.toNat / 2 ^ 26 := by omega
  rcases hclass with h | ⟨h1, h7⟩ | ⟨h8, h15⟩ | ⟨h16, h43⟩ | h
  · by_cases hf : w.toNat % 64 ∈ unassignedFuncts
    · simp [decode_of_unassigned_func h hf, hf]
      omega
    · obtain ⟨i, hi⟩ := decode_of_assigned_func h hf
      simp [hi, hf]
      omega
  · simp [decode_of_op_jump h1 h7]
    omega
  · obtain ⟨i, hi⟩ := decode_of_assigned_op h8 h15
    simp [hi]
    omega
  · simp [decode_of_unassigned_op h16 h43]
    omega
  · simp [decode_of_op_beyond h]
    omega

/-! ### The all-zero word (R96) -/

theorem writeReg_readReg (s : State) (r : RegIdx) : s.writeReg r (s.readReg r) = s := by
  simp [State.writeReg, State.readReg]

theorem exec_sll_zero_self (r : RegIdx) (s : State) : exec (.sll r r 0) s = .next s := by
  have hshift : shiftLeft (s.readReg r) (fixedAmount 0) = s.readReg r := BitVec.shiftLeft_zero _
  rw [exec, execSll, hshift, writeReg_readReg]

/-- Settles O14: `sll` by 0 from a register to itself leaves the state, so the step is the advance alone. -/
theorem zeroWordIsANoOp : Obligations.ZeroWordIsANoOp := by
  have hd : decode 0 = .instr (.sll 0 0 0) := decode_regWord .sll 0 0 0 0
  exact ⟨hd, fun s hh hf => ⟨_, step_of_instr hh hf hd (exec_sll_zero_self 0 s), rfl, onlyPc_advancePc s⟩⟩

/-! ### The spec's own words -/

/-- Settles O19: each valid word is the number its table entry and fields make, with any value in an ignored
field, and each invalid one has an `op` or `func` of its kind. -/
theorem specWordsDecode : Obligations.SpecWordsDecode :=
  ⟨decode_regWord .add 1 0 2 0, decode_regWord .add 1 3 2 31, decode_regWord .ext 1 0 3 25,
    decode_immWord .addi 1 3 0xFFFF, decode_regWord .msub 2 0 2 0, decode_immWord .lui 0 3 0xABCD,
    decode_of_unassigned_op (by decide) (by decide), decode_of_op_jump (by decide) (by decide),
    decode_of_op_beyond (by decide), decode_of_unassigned_func (by decide) (by decide)⟩

end Sys2Proof.Proofs
end

section
/-! PROOFS. The engine cycle (spec 40_engine_cycle.md): a step over a word that decodes to an instruction, a step
over an invalid word, and the step a halted CORE does not have. -/

namespace Sys2Proof.Proofs

open Sys2Proof.Machine Sys2Proof.Safety Sys2Proof.Laws

/-! ### A step over an invalid word (R118, R261) -/

/-- Settles O6: the step is the report and the advance, and the report signals show the report of the fetched
word. -/
theorem invalidWordIsReportedAndSkipped : Obligations.InvalidWordIsReportedAndSkipped := by
  refine ⟨fun s w k hh hf hd => ?_, rfl, rfl, rfl, rfl⟩
  have hstep : step s = .next (s.report k w).advancePc := step_of_invalid hh hf hd
  obtain ⟨w', hw⟩ := step_stepsOver hstep
  cases hf.symm.trans hw.fetched
  have hsignal : invalidReport s (s.report k w).advancePc = some ⟨k, s.pc, w⟩ :=
    hw.invalidReport_eq.trans (wordReport_of_invalid s.pc hd)
  exact ⟨_, hstep, rfl, rfl, fun _ => rfl, ⟨rfl, rfl⟩, rfl, rfl, hh, fun _ => rfl,
    by rw [invalidOp, hsignal, Option.isSome_some], hsignal⟩

/-! ### A step over an instruction (R110, R117, R122) -/

/-- The step over an instruction is its meaning and the advance, whatever outcome the meaning has. -/
theorem step_eq_advance_exec {s : State} {w : Word} {i : Instr} (hh : s.halted = false)
    (hf : busRead 65535 s.mem s.pc = some w) (hd : decode w = .instr i) :
    step s = advance (exec i s) := by
  rw [step, cycle_of_fetched hh hf, dispatchWord_of_instr hd]

/-- Settles O5: the advance adds 4 to the pc of a next state and passes any other outcome on. -/
theorem stepRunsTheDecodedInstruction : Obligations.StepRunsTheDecodedInstruction := by
  intro s w i hh hf hd
  have hstep : step s = advance (exec i s) := step_eq_advance_exec hh hf hd
  refine ⟨fun t he => ?_, fun r he => ?_, fun r he => ?_⟩
  · rw [hstep, he, advance_next, State.advancePc]
  · rw [hstep, he, advance_fault]
  · rw [hstep, he, advance_refused]

/-! ### A halted CORE (R110) -/

theorem step_of_halted {s : State} (h : s.halted = true) : step s = .fault (.stuck s) :=
  cycle_of_halted h

/-- Settles O8: the run of no steps ends in the halted state itself, any longer one in the fault of its first
step. -/
theorem haltedCoreHasNoStep : Obligations.HaltedCoreHasNoStep := by
  intro s h k
  have hrun (n : Nat) : Sys2Proof.core.run (n + 1) s = .fault (.stuck s) :=
    run_succ_of_fault n (step_of_halted h)
  refine ⟨hrun k, ?_⟩
  cases k with
  | zero => simp [endedWell, h]
  | succ n => exact congrArg endedWell (hrun n)

end Sys2Proof.Proofs
end

section
/-! PROOFS. Arithmetic (spec 41_arithmetic.md): sums, differences and the low word of a product, each reduced mod
2^32 (R129). -/

namespace Sys2Proof.Proofs

open Sys2Proof.Machine Sys2Proof.Safety Sys2Proof.Laws

/-! ### Differences and products as numbers mod 2^32 -/

/-- A difference of words is the integer difference reduced mod 2^32 (R134). -/
theorem toNat_sub_eq_emod (v w : Word) : (v - w).toNat = (((v.toNat : Int) - w.toNat) % 2 ^ 32).toNat := by
  have := v.isLt
  have := w.isLt
  rw [BitVec.toNat_sub]
  omega

theorem mulLow_toNat_s32 (v w : Word) : (mulLow v w).toNat = ((s32 v * s32 w) % 2 ^ 32).toNat := by
  rw [s32_eq_toInt, s32_eq_toInt, ← mulLow_toInt_emod, Int.toNat_natCast]

/-- The low word of the signed product is the product of the words: a word and its signed reading agree mod
2^32 (R136). -/
theorem mulLow_eq_mul (v w : Word) : mulLow v w = v * w := by
  rw [mulLow, BitVec.ofInt_mul, BitVec.ofInt_toInt, BitVec.ofInt_toInt]

/-! ### The product (R136) -/

/-- Settles O38: `mul` writes the low word of the signed product, which is the product of the two words. -/
theorem mulGivesTheLowWord : Obligations.MulGivesTheLowWord := by
  intro a b c d s
  have hexec : exec (.mul a b c) s = .next (s.writeReg b (mulLow (s.readReg a) (s.readReg c))) := rfl
  refine ⟨decode_regWord .mul a b c d, regResult_of_writeReg hexec (mulLow_toNat_s32 _ _), ?_⟩
  exact regResult_of_writeReg hexec (by rw [mulLow_eq_mul, BitVec.toNat_mul])

/-! ### The sums (R130 to R133) -/

/-- Settles O35: `add` and `addu` both write the sum of the two words. -/
theorem addAndAdduWrap : Obligations.AddAndAdduWrap := by
  intro a b c d s
  have hsum := BitVec.toNat_add (s.readReg a) (s.readReg c)
  exact ⟨decode_regWord .add a b c d, regResult_of_writeReg rfl hsum,
    decode_regWord .addu a b c d, regResult_of_writeReg rfl hsum⟩

/-- Settles O36: `addi` adds the word of the sign-extended immediate, `addiu` that of the zero-extended one. -/
theorem addImmediatesWrap : Obligations.AddImmediatesWrap := by
  intro a b imm s
  refine ⟨decode_immWord .addi a b imm, regResult_of_writeReg rfl ?sext,
    decode_immWord .addiu a b imm, regResult_of_writeReg rfl ?zext⟩
  case sext => rw [BitVec.toNat_add, sextImm_toNat]
  case zext => rw [BitVec.toNat_add, zextImm_toNat]

/-! ### The differences (R134, R135) -/

/-- Settles O37: `sub` and `subu` both write the difference of the two words. -/
theorem subAndSubuWrap : Obligations.SubAndSubuWrap := by
  intro a b c d s
  have hdiff := toNat_sub_eq_emod (s.readReg a) (s.readReg c)
  exact ⟨decode_regWord .sub a b c d, regResult_of_writeReg rfl hdiff,
    decode_regWord .subu a b c d, regResult_of_writeReg rfl hdiff⟩

end Sys2Proof.Proofs
end

section
/-! PROOFS. Multiply and divide into the accumulator (spec 42_muldiv_acc.md): quotients, and products added to or
subtracted from the pair, each as a number mod 2^64 (R149). -/

namespace Sys2Proof.Proofs

open Sys2Proof.Machine Sys2Proof.Safety Sys2Proof.Laws

/-! ### The halves of a double word set into the accumulator (R9) -/

theorem setAcc64_accHi_of_lt (s : State) {w : DWord} (h : w.toNat < 2 ^ 32) : (s.setAcc64 w).accHi = 0 := by
  apply BitVec.eq_of_toNat_eq
  rw [setAcc64_accHi, BitVec.extractLsb'_toNat, Nat.shiftRight_eq_div_pow, Nat.div_eq_of_lt h]
  rfl

theorem setAcc64_accLo_toNat (s : State) (w : DWord) : (s.setAcc64 w).accLo.toNat = w.toNat % 2 ^ 32 := by
  rw [setAcc64_accLo, BitVec.extractLsb'_toNat, Nat.shiftRight_zero]

theorem quotUnsigned_lt (v w : Word) : (quotUnsigned v w).toNat < 2 ^ 32 := by
  rw [quotUnsigned_toNat]
  exact (Nat.div_le_self _ _).trans_lt v.isLt

/-! ### The products and the signed quotient in the claims' notation (R149, R150) -/

theorem quotSigned_emod_s32 (v w : Word) :
    ((quotSigned v w).toNat : Int) = (s32 v).tdiv (s32 w) % 2 ^ 64 := by
  rw [s32_eq_toInt, s32_eq_toInt, quotSigned_emod]

theorem mulSigned_emod_s32 (v w : Word) : ((mulSigned v w).toNat : Int) = (s32 v * s32 w) % 2 ^ 64 := by
  rw [s32_eq_toInt, s32_eq_toInt, mulSigned_emod]

theorem mulUnsigned_emod (v w : Word) : ((mulUnsigned v w).toNat : Int) = ((v.toNat : Int) * w.toNat) % 2 ^ 64 := by
  rw [mulUnsigned, BitVec.toNat_ofNat]
  push_cast
  rfl

/-! ### Accumulation mod 2^64 (R152 to R155) -/

/-- An instruction whose meaning adds to the accumulator a double word that is `n` mod 2^64. -/
theorem accResult_of_add {i : Instr} {s : State} {w : DWord} {n : Int}
    (he : exec i s = .next (s.setAcc64 (s.acc64 + w))) (hw : (w.toNat : Int) = n % 2 ^ 64) :
    AccResult i s (accBefore s + n) := by
  refine accResult_of_setAcc64 he ?_
  rw [accBefore_eq, BitVec.toNat_add]
  omega

/-- An instruction whose meaning subtracts from the accumulator a double word that is `n` mod 2^64. -/
theorem accResult_of_sub {i : Instr} {s : State} {w : DWord} {n : Int}
    (he : exec i s = .next (s.setAcc64 (s.acc64 - w))) (hw : (w.toNat : Int) = n % 2 ^ 64) :
    AccResult i s (accBefore s - n) := by
  refine accResult_of_setAcc64 he ?_
  have := w.isLt
  rw [accBefore_eq, BitVec.toNat_sub]
  omega

/-! ### The quotients (R150, R151) -/

/-- Settles O39: a nonzero divisor sets the accumulator to the signed quotient, a zero one draws both halves. -/
theorem divGivesTheSignedQuotient : Obligations.DivGivesTheSignedQuotient := by
  intro a b c d s
  refine ⟨decode_regWord .div a b c d, fun hne => ?quotient, fun hzero => ?drawn⟩
  case quotient => exact accResult_of_setAcc64 (execDiv_of_ne_zero a hne) (quotSigned_emod_s32 _ _)
  case drawn => exact accDrawn_of_drawAcc (execDiv_of_zero a hzero)

/-- Settles O40: the unsigned quotient of two words is below 2^32, so it lies in the low half alone; a zero
divisor draws both halves. -/
theorem divuGivesTheUnsignedQuotient : Obligations.DivuGivesTheUnsignedQuotient := by
  intro a b c d s
  refine ⟨decode_regWord .divu a b c d, fun hne => ?quotient, fun hzero => ?drawn⟩
  case quotient =>
    have hlt : (quotUnsigned (s.readReg a) (s.readReg c)).toNat < 2 ^ 32 := quotUnsigned_lt _ _
    refine ⟨_, execDivu_of_ne_zero a hne, setAcc64_accHi_of_lt s hlt, ?_, onlyAcc_setAcc64 s _⟩
    rw [setAcc64_accLo_toNat, Nat.mod_eq_of_lt hlt, quotUnsigned_toNat]
  case drawn => exact accDrawn_of_drawAcc (execDivu_of_zero a hzero)

/-! ### The accumulations (R152 to R155) -/

/-- Settles O41: `madd` adds the signed product to the accumulator, `maddu` the unsigned one. -/
theorem maddAndMadduAccumulate : Obligations.MaddAndMadduAccumulate := by
  intro a b c d s
  exact ⟨decode_regWord .madd a b c d, accResult_of_add rfl (mulSigned_emod_s32 _ _),
    decode_regWord .maddu a b c d, accResult_of_add rfl (mulUnsigned_emod _ _)⟩

/-- Settles O42: `msub` subtracts the signed product from the accumulator, `msubu` the unsigned one. -/
theorem msubAndMsubuAccumulate : Obligations.MsubAndMsubuAccumulate := by
  intro a b c d s
  exact ⟨decode_regWord .msub a b c d, accResult_of_sub rfl (mulSigned_emod_s32 _ _),
    decode_regWord .msubu a b c d, accResult_of_sub rfl (mulUnsigned_emod _ _)⟩

end Sys2Proof.Proofs
end

section
/-! PROOFS. Bitwise logic (spec 43_bitwise.md): each bit of the result is the operation of the operands' bits at
its position, the immediate being zero-extended (R88). -/

namespace Sys2Proof.Proofs

open Sys2Proof.Machine Sys2Proof.Safety Sys2Proof.Laws

/-! ### Bits of a zero-extended immediate and of a complement -/

/-- Past bit 15 both sides are 0 (R88). -/
theorem getLsbD_zextImm (imm : Imm) {k : Nat} (hk : k < 32) : (zextImm imm).getLsbD k = imm.getLsbD k := by
  rw [zextImm, BitVec.getLsbD_setWidth, decide_eq_true hk, Bool.true_and]

theorem getLsbD_complement (v : Word) {k : Nat} (hk : k < 32) : (~~~v).getLsbD k = !v.getLsbD k := by
  rw [BitVec.getLsbD_not, decide_eq_true hk, Bool.true_and]

/-! ### Two registers (R170, R172, R174, R176) -/

/-- Settles O43: the library's bit of `&&&`, `|||` and `^^^`, and for `nor` the complement of the bit of `|||`. -/
theorem andOrXorNorOfRegisters : Obligations.AndOrXorNorOfRegisters := by
  intro a b c d s
  refine ⟨decode_regWord .and a b c d, regBits_of_writeReg rfl fun k _ => BitVec.getLsbD_and,
    decode_regWord .or a b c d, regBits_of_writeReg rfl fun k _ => BitVec.getLsbD_or,
    decode_regWord .xor a b c d, regBits_of_writeReg rfl fun k _ => BitVec.getLsbD_xor,
    decode_regWord .nor a b c d, regBits_of_writeReg rfl fun k hk => ?nor⟩
  case nor => rw [getLsbD_complement _ hk, BitVec.getLsbD_or]

/-! ### A register and an immediate (R171, R173, R175) -/

/-- Settles O44: a bit of the zero-extended operand is the bit of the immediate. -/
theorem andOrXorOfImmediates : Obligations.AndOrXorOfImmediates := by
  intro a b imm s
  refine ⟨decode_immWord .andi a b imm, regBits_of_writeReg rfl fun k hk => ?and,
    decode_immWord .ori a b imm, regBits_of_writeReg rfl fun k hk => ?or,
    decode_immWord .xori a b imm, regBits_of_writeReg rfl fun k hk => ?xor⟩
  case and => rw [BitVec.getLsbD_and, getLsbD_zextImm imm hk]
  case or => rw [BitVec.getLsbD_or, getLsbD_zextImm imm hk]
  case xor => rw [BitVec.getLsbD_xor, getLsbD_zextImm imm hk]

/-! ### The complement (R177, R213) -/

/-- Settles O45: `not` and `negu` both write the complement of the word, which is 2^32 - 1 less the word. -/
theorem notAndNeguComplement : Obligations.NotAndNeguComplement := by
  intro a b c d s
  have hnot : (~~~s.readReg a).toNat = 2 ^ 32 - 1 - (s.readReg a).toNat := BitVec.toNat_not
  exact ⟨decode_regWord .not a b c d, regResult_of_writeReg rfl hnot,
    decode_regWord .negu a b c d, regResult_of_writeReg rfl hnot⟩

end Sys2Proof.Proofs
end

section
/-! PROOFS. Shifts and rotates (spec 44_shift_rotate.md): each shift as a number, the true rotation bit by bit and
its round trip, and the reference's rotation under the other `ROTR_VARIANT` (R190 to R198). -/

namespace Sys2Proof.Proofs

open Sys2Proof.Machine Sys2Proof.Safety Sys2Proof.Laws

/-! ### The arithmetic shift as a number mod 2^32 -/

/-- The quotient is rounded down, as `Int.fdiv` and the library's shift both do it (R9). -/
theorem shiftRightArith_toNat_s32 (v : Word) (n : Nat) :
    (shiftRightArith v n).toNat = (Int.fdiv (s32 v) (2 ^ n) % 2 ^ 32).toNat := by
  have hfloor : Int.fdiv (s32 v) (2 ^ n) = (shiftRightArith v n).toInt := by
    rw [s32_eq_toInt, shiftRightArith_toInt, Int.fdiv_eq_ediv_of_nonneg _ (by positivity)]
  have hword := BitVec.toNat_ofInt (n := 32) (shiftRightArith v n).toInt
  rw [BitVec.ofInt_toInt] at hword
  rw [hfloor]
  exact_mod_cast hword

/-! ### The shifts (R190 to R195) -/

/-- Settles O46: both amounts give a left shift, which multiplies by a power of 2. -/
theorem shiftLeftLogical : Obligations.ShiftLeftLogical := by
  intro a b c d s
  refine ⟨decode_regWord .sll a b c d, regResult_of_writeReg rfl (shiftLeft_toNat _ _),
    decode_regWord .sllv a b c d, regResult_of_writeReg rfl ?register⟩
  case register => rw [shiftLeft_toNat, regAmount_eq_mod]

/-- Settles O47: both amounts give a right shift, which divides by a power of 2. -/
theorem shiftRightLogical : Obligations.ShiftRightLogical := by
  intro a b c d s
  refine ⟨decode_regWord .srl a b c d, regResult_of_writeReg rfl (shiftRightLogical_toNat _ _),
    decode_regWord .srlv a b c d, regResult_of_writeReg rfl ?register⟩
  case register => rw [shiftRightLogical_toNat, regAmount_eq_mod]

/-- Settles O48: both amounts give an arithmetic shift, the floor of the signed quotient. -/
theorem shiftRightArithmetic : Obligations.ShiftRightArithmetic := by
  intro a b c d s
  refine ⟨decode_regWord .sra a b c d, regResult_of_writeReg rfl (shiftRightArith_toNat_s32 _ _),
    decode_regWord .srav a b c d, regResult_of_writeReg rfl ?register⟩
  case register => rw [shiftRightArith_toNat_s32, regAmount_eq_mod]

/-! ### The true rotation (R196, R197) -/

/-- Rotations by `n` and by `32 - n` move each bit by 32 places in all, back to its own. -/
theorem rotateRight_rotateRight (v : Word) {n : Nat} (h1 : 1 ≤ n) (hn : n < 32) :
    rotateRight (rotateRight v n) (32 - n) = v := by
  refine BitVec.eq_of_getLsbD_eq fun k hk => ?_
  have hback : ((k + (32 - n)) % 32 + n) % 32 = k := by omega
  rw [getLsbD_rotateRight _ (by omega) hk, getLsbD_rotateRight _ hn (Nat.mod_lt _ (by decide)), hback]

theorem exec_rotr (a b : RegIdx) (d : Amount) (s : State) :
    exec (.rotr a b d) s = .next (s.writeReg b (rotateRight (s.readReg a) d.toNat)) := rfl

/-- Settles O32: the second amount fits in field D, so the two rotations add up to 32. -/
theorem rotateRoundTrip : Obligations.RotateRoundTrip := by
  intro a b n s h1
  refine ⟨_, _, exec_rotr a b n s, exec_rotr b b _ _, ?_⟩
  have hamount : (BitVec.ofNat 5 (32 - n.toNat)).toNat = 32 - n.toNat := by
    rw [BitVec.toNat_ofNat, Nat.mod_eq_of_lt (by omega)]
  rw [readReg_writeReg_self, readReg_writeReg_self, hamount, rotateRight_rotateRight _ h1 n.isLt]

/-- Settles O49: both amounts are below 32, where bit `k` of the rotation is bit `(k + n) mod 32`. -/
theorem rotateRight : Obligations.RotateRight := by
  intro a b c d s
  refine ⟨decode_regWord .rotr a b c d,
    regBits_of_writeReg rfl fun k hk => getLsbD_rotateRight _ (fixedAmount_lt d) hk,
    decode_regWord .rotrv a b c d, regBits_of_writeReg rfl fun k hk => ?register⟩
  case register => rw [getLsbD_rotateRight _ (regAmount_lt _) hk, regAmount_eq_mod]

/-! ### The reference's rotation (R198) -/

theorem rotateRef_zero (v : Word) : rotateRef v 0 = v := rfl

/-- From 2 on the left part lands one place too high: bit `k` takes bit `k - (33 - n)`, not `k - (32 - n)`. -/
theorem getLsbD_rotateRef (v : Word) {n k : Nat} (h0 : n ≠ 0) (hk : k < 32) :
    (rotateRef v n).getLsbD k = ((decide (33 - n ≤ k) && v.getLsbD (k - (33 - n))) || v.getLsbD (k + n)) := by
  have hlow : (!decide (k < 33 - n)) = decide (33 - n ≤ k) := by
    rw [← decide_not]; exact decide_eq_decide.mpr Nat.not_lt
  rw [rotateRef, if_neg h0, BitVec.getLsbD_or, getLsbD_shiftLeft, getLsbD_shiftRightLogical, decide_eq_true hk,
    Bool.true_and, hlow, Nat.add_comm n k]

/-- The three cases of the amount: the value itself at 0, a draw at 1, the formula from 2 on. -/
theorem refRotated_writeRotated (s : State) (b : RegIdx) (v : Word) (n : Nat) :
    RefRotated s b v n (.next (s.writeRotated .reference b v n)) := by
  by_cases h1 : n = 1
  · subst h1
    obtain ⟨hregs, hacc, -, hengine⟩ := onlyReg_writeReg s.afterDraw b (Config.draw32 s.draws)
    rw [writeRotated_reference_one]
    exact ⟨_, rfl, hregs, hacc, hengine, readReg_writeReg_self _ _ _, rfl⟩
  · obtain ⟨hregs, hacc, hdraws, hengine⟩ := onlyReg_writeReg s b (rotateRef v n)
    rw [writeRotated_reference_of_ne s b v h1]
    refine ⟨_, rfl, hregs, hacc, hengine, ?_⟩
    rw [readReg_writeReg_self]
    by_cases h0 : n = 0
    · subst h0; exact ⟨rotateRef_zero v, hdraws⟩
    · rw [if_neg h0, if_neg h1]; exact ⟨hdraws, fun k hk => getLsbD_rotateRef v h0 hk⟩

section Reference

variable {p : Config.Params} (hp : p.rotrVariant = .reference)
include hp

theorem execIn_rotr_reference (a b : RegIdx) (d : Amount) (s : State) :
    execIn p (.rotr a b d) s = .next (s.writeRotated .reference b (s.readReg a) d.toNat) := by
  rw [← hp]; rfl

theorem execIn_rotrv_reference (a b c : RegIdx) (s : State) :
    execIn p (.rotrv a b c) s =
      .next (s.writeRotated .reference b (s.readReg a) ((s.readReg c).toNat % 32)) := by
  rw [← hp, ← regAmount_eq_mod]; rfl

theorem execIn_rotr_reference_of_ne {a b : RegIdx} {d : Amount} {s : State} (hd : d.toNat ≠ 1) :
    execIn p (.rotr a b d) s = .next (s.writeReg b (rotateRef (s.readReg a) d.toNat)) := by
  rw [execIn_rotr_reference hp, writeRotated_reference_of_ne _ _ _ hd]

end Reference

/-- Settles O31: both rotations are the one write that `refRotated_writeRotated` speaks of, and two of the
formula's values, by 4 and by 28, give the failed round trip. -/
theorem referenceRotateIsOffByOne : Obligations.ReferenceRotateIsOffByOne := by
  refine ⟨fun p s a b c d hp => ⟨?fixed, ?register⟩, fun p s hp hv => ?trip, rfl⟩
  case fixed => rw [execIn_rotr_reference hp]; exact refRotated_writeRotated s b _ _
  case register => rw [execIn_rotrv_reference hp]; exact refRotated_writeRotated s b _ _
  case trip =>
    have hfirst : (s.writeReg 1 (rotateRef (s.readReg 1) (4 : Amount).toNat)).readReg 1 = 0x01234567 := by
      rw [readReg_writeReg_self, hv]; decide
    refine ⟨_, _, execIn_rotr_reference_of_ne hp (by decide), hfirst,
      execIn_rotr_reference_of_ne hp (by decide), ?_⟩
    rw [readReg_writeReg_self, hfirst]
    decide

end Sys2Proof.Proofs
end

section
/-! PROOFS. Moves and comparisons (spec 45_move_compare.md): a copy, a copy under a condition, and the 1 or 0 of
a comparison (R39). -/

namespace Sys2Proof.Proofs

open Sys2Proof.Machine Sys2Proof.Safety Sys2Proof.Laws

/-! ### The word of a condition and the two orders -/

theorem condWord_toNat {cond : Bool} {P : Prop} [Decidable P] (h : cond = true ↔ P) :
    (condWord cond).toNat = if P then 1 else 0 := by
  cases cond with
  | true => rw [if_pos (h.mp rfl)]; rfl
  | false => rw [if_neg fun hP => Bool.false_ne_true (h.mpr hP)]; rfl

theorem lessSigned_iff_s32 (v w : Word) : lessSigned v w = true ↔ s32 v < s32 w := by
  rw [lessSigned_iff, s32_eq_toInt, s32_eq_toInt]

/-- The immediate is extended before the comparison and keeps its 16-bit signed value (R216). -/
theorem lessSigned_sextImm_iff (v : Word) (imm : Imm) : lessSigned v (sextImm imm) = true ↔
    s32 v < if imm.toNat < 2 ^ 15 then (imm.toNat : Int) else imm.toNat - 2 ^ 16 := by
  rw [lessSigned_iff, s32_eq_toInt, sextImm_s32]

theorem lessUnsigned_zextImm_iff (v : Word) (imm : Imm) :
    lessUnsigned v (zextImm imm) = true ↔ v.toNat < imm.toNat := by
  rw [lessUnsigned_iff, zextImm_toNat]

/-! ### The conditional copies (R211, R212) -/

/-- Settles O51: on each side of the condition one of the two copies and the other writes nothing. -/
theorem conditionalMoves : Obligations.ConditionalMoves := by
  intro a b c d s
  refine ⟨decode_regWord .movn a b c d, ?movn, decode_regWord .movz a b c d, ?movz⟩
  case movn =>
    split_ifs with h
    · exact regResult_of_writeReg (execMovn_of_ne_zero a b (BitVec.toNat_ne_iff_ne.mp h)) rfl
    · exact regResult_of_same (execMovn_of_zero a b (BitVec.eq_of_toNat_eq (not_not.mp h)))
  case movz =>
    split_ifs with h
    · exact regResult_of_writeReg (execMovz_of_zero a b (BitVec.eq_of_toNat_eq h)) rfl
    · exact regResult_of_same (execMovz_of_ne_zero a b (BitVec.toNat_ne_iff_ne.mp h))

/-! ### The comparisons (R214 to R217) -/

/-- Settles O52: both write the word of the signed order, `slti` against the sign-extended immediate. -/
theorem setOnSignedLessThan : Obligations.SetOnSignedLessThan := by
  intro a b c d imm s
  exact ⟨decode_regWord .slt a b c d, regResult_of_writeReg rfl (condWord_toNat (lessSigned_iff_s32 _ _)),
    decode_immWord .slti a b imm, regResult_of_writeReg rfl (condWord_toNat (lessSigned_sextImm_iff _ _))⟩

/-- Settles O53: both write the word of the unsigned order, `sltiu` against the zero-extended immediate. -/
theorem setOnUnsignedLessThan : Obligations.SetOnUnsignedLessThan := by
  intro a b c d imm s
  exact ⟨decode_regWord .sltu a b c d, regResult_of_writeReg rfl (condWord_toNat (lessUnsigned_iff _ _)),
    decode_immWord .sltiu a b imm, regResult_of_writeReg rfl (condWord_toNat (lessUnsigned_zextImm_iff _ _))⟩

/-! ### The copy (R210) -/

/-- Settles O50: `mov` is one write of `x[A]`, whatever fields C and D hold. -/
theorem movCopiesARegister : Obligations.MovCopiesARegister := by
  intro a b c d s
  exact ⟨decode_regWord .mov a b c d, regResult_of_writeReg rfl rfl⟩

end Sys2Proof.Proofs
end

section
/-! PROOFS. Bit fields and bytes (spec 46_bitfield.md): masks, counts over all 32 bits, fields kept in place or ORed
in, and the bytes of each half-word swapped (R230 to R237). -/

namespace Sys2Proof.Proofs

open Sys2Proof.Machine Sys2Proof.Safety Sys2Proof.Laws

/-! ### The counts (R232, R233) -/

theorem ofNat_popcount_toNat (v : Word) : (BitVec.ofNat 32 (popcount v)).toNat = popcount v := by
  have := popcount_le v
  rw [BitVec.toNat_ofNat, Nat.mod_eq_of_lt (by omega)]

theorem ofNat_sub_popcount_toNat (v : Word) : (BitVec.ofNat 32 (32 - popcount v)).toNat = 32 - popcount v := by
  rw [BitVec.toNat_ofNat, Nat.mod_eq_of_lt (by omega)]

/-- The positions whose bit is 0 are those of the 32 that `popcount` leaves out (R233). -/
theorem sub_popcount_eq_card (v : Word) :
    32 - popcount v = (Finset.univ.filter fun k : Fin 32 => v.getLsbD k = false).card := by
  have hall := Finset.card_filter_add_card_filter_not (s := Finset.univ) fun k : Fin 32 => v.getLsbD k = true
  simp only [Bool.not_eq_true, Finset.card_univ, Fintype.card_fin, ← popcount_eq_card] at hall
  omega

theorem exec_clo (a b : RegIdx) (s : State) :
    exec (.clo a b) s = .next (s.writeReg b (BitVec.ofNat 32 (popcount (s.readReg a)))) := rfl

theorem exec_clz (a b : RegIdx) (s : State) :
    exec (.clz a b) s = .next (s.writeReg b (BitVec.ofNat 32 (32 - popcount (s.readReg a)))) := rfl

/-- Settles O55: both counts fit in a word, `clo` counts the ones and `clz` the rest of the 32 positions. -/
theorem cloAndClzCountAllBits : Obligations.CloAndClzCountAllBits := by
  intro a b c d s
  have hones := (ofNat_popcount_toNat (s.readReg a)).trans (popcount_eq_card _)
  have hzeros := (ofNat_sub_popcount_toNat (s.readReg a)).trans (sub_popcount_eq_card _)
  exact ⟨decode_regWord .clo a b c d, regResult_of_writeReg (exec_clo a b s) hones,
    decode_regWord .clz a b c d, regResult_of_writeReg (exec_clz a b s) hzeros⟩

/-- Settles O33: `clz` writes what the count of `clo` leaves of 32. -/
theorem cloPlusClzIsThirtyTwo : Obligations.CloPlusClzIsThirtyTwo := by
  intro a b c s
  refine ⟨_, _, exec_clo a b s, exec_clz a c s, ?_⟩
  rw [readReg_writeReg_self, readReg_writeReg_self, ofNat_popcount_toNat, ofNat_sub_popcount_toNat]
  exact Nat.add_sub_cancel' (popcount_le _)

/-! ### The fields (R234, R235) -/

/-- Settles O56: the result's bits are those of `extractField`. -/
theorem extKeepsAFieldInPlace : Obligations.ExtKeepsAFieldInPlace := by
  intro a b c d s
  refine ⟨decode_regWord .ext a b c d, regBits_of_writeReg rfl fun k _ => ?bit⟩
  case bit => rw [getLsbD_extractField, Bool.and_comm]

/-- Settles O57: the result's bits are the old ones ORed with those of `insertedField`. -/
theorem insOrsAFieldIn : Obligations.InsOrsAFieldIn := by
  intro a b c d s
  refine ⟨decode_regWord .ins a b c d, regBits_of_writeReg rfl fun k hk => ?bit⟩
  case bit => rw [BitVec.getLsbD_or, getLsbD_insertedField _ _ _ hk]

/-- The mask of the low `size` bits reduces a word mod 2^size. -/
theorem and_lowMask_toNat (v : Word) (size : Amount) : (v &&& lowMask size).toNat = v.toNat % 2 ^ size.toNat := by
  rw [BitVec.toNat_and, lowMask_toNat, Nat.and_two_pow_sub_one_eq_mod]

theorem shiftLeft_zero (v : Word) : shiftLeft v (0 : Amount).toNat = v := BitVec.shiftLeft_zero v

theorem extractField_zero (v : Word) (size : Amount) : extractField v 0 size = v &&& lowMask size := by
  rw [extractField, shiftLeft_zero]

theorem insertedField_zero (v : Word) (size : Amount) : insertedField v 0 size = v &&& lowMask size := by
  rw [insertedField, shiftLeft_zero]

theorem exec_ext (a b : RegIdx) (pos size : Amount) (s : State) :
    exec (.ext a b pos size) s = .next (s.writeReg b (extractField (s.readReg a) pos size)) := rfl

theorem exec_ins (a b : RegIdx) (pos size : Amount) (s : State) :
    exec (.ins a b pos size) s =
      .next (s.writeReg b (s.readReg b ||| insertedField (s.readReg a) pos size)) := rfl

/-- An `ext` followed by an `ins` of its result into a zero register inserts the field taken: the OR is with 0
(R235, conflict C7). -/
theorem ext_then_ins_into_zero (a : RegIdx) {b c : RegIdx} (pos size : Amount) {s : State} (hcb : c ≠ b)
    (hc : s.readReg c = 0) :
    ∃ t u, exec (.ext a b pos size) s = .next t ∧ exec (.ins b c pos size) t = .next u ∧
      u.readReg b = extractField (s.readReg a) pos size ∧
      u.readReg c = insertedField (extractField (s.readReg a) pos size) pos size := by
  refine ⟨_, _, exec_ext a b pos size s, exec_ins b c pos size _, ?_, ?_⟩
  · rw [readReg_writeReg_of_ne _ hcb.symm, readReg_writeReg_self]
  · rw [readReg_writeReg_self, readReg_writeReg_self, readReg_writeReg_of_ne _ hcb, hc]
    exact BitVec.zero_or

/-- Settles O34: at bit 0 both instructions mask the low bits in place, and masking twice is masking once; at bit 8
the field `ext` leaves lies above the 8 bits `ins` takes. -/
theorem extThenInsAtBitZero : Obligations.ExtThenInsAtBitZero := by
  refine ⟨fun a b c size s hcb hc => ?law, fun s hv hz => ?counterexample⟩
  case law =>
    obtain ⟨t, u, ht, hu, -, hfield⟩ := ext_then_ins_into_zero a 0 size hcb hc
    refine ⟨t, u, ht, hu, ?_⟩
    rw [hfield, insertedField_zero, extractField_zero, and_lowMask_toNat, and_lowMask_toNat, Nat.mod_mod]
  case counterexample =>
    obtain ⟨t, u, ht, hu, htaken, hinserted⟩ := ext_then_ins_into_zero 1 (b := 2) 8 8 (by decide) hz
    rw [hv] at htaken hinserted
    exact ⟨t, u, ht, hu, htaken.trans (by decide), hinserted.trans (by decide)⟩

/-! ### The bytes of each half-word (R236) -/

/-- The four bytes as digits to the base 2^8, in the order of R236. -/
theorem swapHalfBytes_toNat (v : Word) : (swapHalfBytes v).toNat =
    v.toNat / 2 ^ 16 % 2 ^ 8 * 2 ^ 24 + v.toNat / 2 ^ 24 * 2 ^ 16 +
      v.toNat % 2 ^ 8 * 2 ^ 8 + v.toNat / 2 ^ 8 % 2 ^ 8 := by
  have := v.isLt
  simp only [swapHalfBytes, BitVec.toNat_append]
  rw [← Nat.shiftLeft_add_eq_or_of_lt (BitVec.isLt _), ← Nat.shiftLeft_add_eq_or_of_lt (BitVec.isLt _),
    ← Nat.shiftLeft_add_eq_or_of_lt (BitVec.isLt _)]
  simp only [BitVec.extractLsb'_toNat, Nat.shiftLeft_eq, Nat.shiftRight_eq_div_pow]
  omega

/-- Each bit comes from the other byte of its half, and that byte's from this one. -/
theorem swapHalfBytes_swapHalfBytes (v : Word) : swapHalfBytes (swapHalfBytes v) = v := by
  refine BitVec.eq_of_getLsbD_eq fun k hk => ?_
  rw [getLsbD_swapHalfBytes _ hk]
  split_ifs with hlow
  · rw [getLsbD_swapHalfBytes _ (by omega), if_neg (by omega), Nat.add_sub_cancel]
  · rw [getLsbD_swapHalfBytes _ (by omega), if_pos (by omega), Nat.sub_add_cancel (by omega)]

theorem exec_wsbh (a b : RegIdx) (s : State) :
    exec (.wsbh a b) s = .next (s.writeReg b (swapHalfBytes (s.readReg a))) := rfl

/-- Settles O58: the result is `swapHalfBytes`, which is its own inverse. -/
theorem wsbhSwapsBytesInHalves : Obligations.WsbhSwapsBytesInHalves := by
  intro a b c d s
  refine ⟨decode_regWord .wsbh a b c d, regResult_of_writeReg (exec_wsbh a b s) (swapHalfBytes_toNat _),
    _, _, exec_wsbh a b s, exec_wsbh b b _, ?twice⟩
  case twice => rw [readReg_writeReg_self, readReg_writeReg_self, swapHalfBytes_swapHalfBytes]

/-! ### The masks (R230, R231) and the upper immediate (R237) -/

/-- Settles O54: an AND with 2^8 - 1 or 2^16 - 1 is the remainder, whatever the sign bit. -/
theorem sebAndSehMask : Obligations.SebAndSehMask := by
  intro a b c d s
  refine ⟨decode_regWord .seb a b c d, regResult_of_writeReg rfl ?seb,
    decode_regWord .seh a b c d, regResult_of_writeReg rfl ?seh⟩
  case seb => rw [BitVec.toNat_and]; exact Nat.and_two_pow_sub_one_eq_mod _ 8
  case seh => rw [BitVec.toNat_and]; exact Nat.and_two_pow_sub_one_eq_mod _ 16

/-- Settles O59: `lui` is one write of the immediate in the upper half, whatever field A holds. -/
theorem luiLoadsTheUpperHalf : Obligations.LuiLoadsTheUpperHalf := by
  intro a b imm s
  exact ⟨decode_immWord .lui a b imm, regResult_of_writeReg rfl (upperImm_toNat imm)⟩

end Sys2Proof.Proofs
end

section
/-! PROOFS. Control transfer, exceptions, reset and boot (spec 47_control_transfer.md, 60_exceptions.md,
70_reset_and_hazards.md): the straight run to the end of the bus and the fault there, a populated jump slot, the
condition a division by zero is not, and the program that boot places. -/

namespace Sys2Proof.Proofs

open Sys2Proof.Machine Sys2Proof.Safety Sys2Proof.Laws

/-! ### The two ends of a fetch (R111) -/

theorem step_of_beyond {s : State} (hh : s.halted = false) (hpc : 0x3FFFC ≤ s.pc.toNat) :
    step s = .fault (.busRange s.haltedByBusRange) :=
  cycle_of_beyond hh (busRead_eq_none.mpr (busBound_defaultParams ▸ hpc))

/-- Below the bus's end a CORE that is not halted always has its step, as its clock edge has (R122, R264). -/
theorem exists_step_of_lt {s : State} (hh : s.halted = false) (hpc : s.pc.toNat < 0x3FFFC) :
    ∃ t, step s = .next t := by
  have he : ibusRangeErrIn defaultParams s = false := by
    rw [Bool.eq_false_iff, ne_eq, ibusRangeErrIn_iff, busBound_defaultParams, Nat.not_le]
    exact hpc
  obtain ⟨-, t, -, -, hedge, -⟩ := clockEdgeIn_of_fetched 0 hh he
  exact ⟨_, (clockEdge_step 0).symm.trans hedge⟩

/-! ### The straight run (R117, R118, R250) -/

theorem run_succ_of_refused {s : State} {r : Refusal} (k : Nat) (h : step s = .refused r) :
    Sys2Proof.core.run (k + 1) s = .refused r := by
  have h' : Sys2Proof.core.step s = .refused r := h
  simp only [Host.Core.run, h']

theorem run_one (s : State) : Sys2Proof.core.run 1 s = step s := by
  cases hs : step s with
  | next t => exact run_succ_of_next 0 hs
  | fault r => exact run_succ_of_fault 0 hs
  | refused r => exact run_succ_of_refused 0 hs

/-- One step more at the end of a run is a step from the state the run left. -/
theorem run_succ_of_run_eq_next {k : Nat} {s t : State} (h : Sys2Proof.core.run k s = .next t) :
    Sys2Proof.core.run (k + 1) s = step t := by
  induction k generalizing s with
  | zero => cases h; exact run_one t
  | succ k ih =>
    cases hs : step s with
    | next u =>
      rw [run_succ_of_next k hs] at h
      rw [run_succ_of_next (k + 1) hs, ih h]
    | fault r => simp [run_succ_of_fault k hs] at h
    | refused r => simp [run_succ_of_refused k hs] at h

/-- What a run of `k` steps from `s` to `t` does to all state that no instruction writes, over the `k` words from
the pc on. -/
structure RunsOver (k : Nat) (s t : State) : Prop where
  run : Sys2Proof.core.run k s = .next t
  pc : t.pc.toNat = s.pc.toNat + 4 * k
  mem : t.mem = s.mem
  pb : t.pb = s.pb
  halted : t.halted = false
  reports : t.reports = s.reports ++ reportsOver s.mem (s.pc.toNat / 4) k

theorem runsOver_zero {s : State} (hh : s.halted = false) : RunsOver 0 s s :=
  ⟨rfl, rfl, rfl, rfl, hh, by simp [reportsOver]⟩

/-- A step below the bus's end makes the run one word longer. -/
theorem RunsOver.succ {k : Nat} {s t u : State} (hr : RunsOver k s t) (halign : s.pc.toNat % 4 = 0)
    (hpc : t.pc.toNat < 0x3FFFC) (h : step t = .next u) : RunsOver (k + 1) s u := by
  obtain ⟨w, hw⟩ := step_stepsOver h
  have htpc := hr.pc
  have hindex : t.pc.toNat / 4 = s.pc.toNat / 4 + k := by omega
  refine ⟨(run_succ_of_run_eq_next hr.run).trans h, ?_, hw.mem.trans hr.mem, hw.pb.trans hr.pb, hw.halted, ?_⟩
  · rw [pcAdvancesByFourOnly t u h]; omega
  · rw [hw.reports, hw.wordReport_eq (by omega), hr.reports, hr.mem, hindex, reportsOver_succ, List.append_assoc]

theorem exists_runsOver {s : State} (hh : s.halted = false) (halign : s.pc.toNat % 4 = 0) {k : Nat}
    (hk : s.pc.toNat + 4 * k ≤ 0x3FFFC) : ∃ t, RunsOver k s t := by
  induction k with
  | zero => exact ⟨s, runsOver_zero hh⟩
  | succ k ih =>
    obtain ⟨t, hr⟩ := ih (by omega)
    have hpc : t.pc.toNat < 0x3FFFC := by rw [hr.pc]; omega
    obtain ⟨u, hu⟩ := exists_step_of_lt hr.halted hpc
    exact ⟨u, hr.succ halign hpc hu⟩

/-- Settles O4: below the bus's end every word is stepped over, whatever it is, and at the end the fetch faults. -/
theorem straightLineRunToTheEndOfTheBus : Obligations.StraightLineRunToTheEndOfTheBus := by
  intro s k hh halign hk
  obtain ⟨t, hr⟩ := exists_runsOver hh halign hk
  refine ⟨t, hr.run, hr.pc, fun addr => by rw [hr.mem], hr.pb, hr.halted, hr.reports, fun hend => ?_⟩
  have hfault : step t = .fault (.busRange t.haltedByBusRange) :=
    step_of_beyond hr.halted (hr.pc.trans hend).ge
  exact ⟨hfault, by rw [run_succ_of_run_eq_next hr.run, hfault, endedWell]⟩

/-- Settles O7: the state left differs in the halt flag alone, which the next step meets and a reset clears. -/
theorem fetchBeyondTheBusHalts : Obligations.FetchBeyondTheBusHalts := by
  refine ⟨fun s hh hpc => ?_, rfl⟩
  exact ⟨s.haltedByBusRange, step_of_beyond hh hpc, rfl, rfl, fun _ => rfl, ⟨rfl, rfl⟩, rfl, rfl, rfl, rfl,
    fun _ => rfl, step_of_halted rfl, fun n => clockEdgeIn_rst n⟩

/-! ### A populated jump slot (R114, R252) -/

/-- A jump-form word whose slot has a handler decodes to that jump (R84, R93). -/
theorem decodeIn_jumpWord {p : Config.Params} {op : Nat} {handler : Config.JumpHandler} (h1 : 1 ≤ op)
    (h7 : op ≤ 7) (target : Target) (hj : p.jumpTable (BitVec.ofNat 6 op) = some handler) :
    decodeIn p (jumpWord op target) = .jump (BitVec.ofNat 6 op) target := by
  have hop : (BitVec.ofNat 6 op).toNat = op := by rw [BitVec.toNat_ofNat]; omega
  have hword : jumpWord op target = wordJ (BitVec.ofNat 6 op) target := by
    rw [← jumpWord_eq_wordJ, hop]
  rw [hword, decodeIn_of_jump (by rw [opField_wordJ, hop]; exact h1) (by rw [opField_wordJ, hop]; exact h7)]
  simp [decodeJump, hj]

theorem stepIn_of_jump {p : Config.Params} {s : State} {w : Word} {op : BitVec 6} {target : Target}
    (hh : s.halted = false) (hf : busRead p.memWords s.mem s.pc = some w) (hd : decodeIn p w = .jump op target) :
    stepIn p s = .next (runJump p op target s).advancePc := by
  rw [stepIn, cycle_of_fetched hh hf, dispatchWord_of_jump hd, advance_next]

/-- Settles O30: the advance adds 4 to the pc the handler wrote, or to the old one where it wrote none. -/
theorem jumpHandlerWriteIsThenAdvanced : Obligations.JumpHandlerWriteIsThenAdvanced := by
  intro p s op target handler h1 h7 hh hf hj
  have hstep := stepIn_of_jump hh hf (decodeIn_jumpWord h1 h7 target hj)
  cases hv : handler target s.pc with
  | some v =>
    rw [runJump_of_write hj hv] at hstep
    exact ⟨_, hstep, onlyPc_advancePc s, rfl⟩
  | none =>
    rw [runJump_of_no_write hj hv] at hstep
    exact ⟨_, hstep, onlyPc_advancePc s, rfl⟩

/-! ### No instruction ends a run (R263, R264) -/

/-- Settles O20: each of the four effects an instruction can have is a next state. -/
theorem everyInstructionCompletes : Obligations.EveryInstructionCompletes := exec_completes

/-- Settles O15: by zero both divisions are the two draws, which the step advances over. -/
theorem divisionByZeroIsNoCondition : Obligations.DivisionByZeroIsNoCondition := by
  intro s w a c hh hf hd hc
  have hstep : step s = .next s.drawAcc.advancePc := by
    obtain hd | hd := hd
    · exact step_of_instr hh hf hd (execDiv_of_zero a hc)
    · exact step_of_instr hh hf hd (execDivu_of_zero a hc)
  exact ⟨_, hstep, rfl, rfl, rfl, rfl, fun _ => rfl, rfl, rfl, hh, fun _ => rfl⟩

/-! ### The program that boot places (R293) -/

/-- The bus after the words of a list were written from word index `j` on. -/
def writeWords (m : Memory) (j : Nat) : List Word → Memory
  | [] => m
  | w :: ws => writeWords (m.writeWord j w) (j + 1) ws

theorem wf_writeWords {m : Memory} (hm : m.wf = true) (j : Nat) (ws : List Word) :
    (writeWords m j ws).wf = true := by
  induction ws generalizing m j with
  | nil => exact hm
  | cons w ws ih => exact ih (wf_writeWord hm j w) (j + 1)

theorem readWord_writeWords_of_lt (m : Memory) {j k : Nat} (h : k < j) (ws : List Word) :
    (writeWords m j ws).readWord k = m.readWord k := by
  induction ws generalizing m j with
  | nil => rfl
  | cons w ws ih => rw [writeWords, ih _ (by omega), readWord_writeWord_of_ne m (by omega)]

/-- The `k`-th word from `j` on is the `k`-th of the list, and past the list the old one. -/
theorem readWord_writeWords {m : Memory} (hm : m.wf = true) (j k : Nat) (ws : List Word) :
    (writeWords m j ws).readWord (j + k) = ws.getD k (m.readWord (j + k)) := by
  induction ws generalizing m j k with
  | nil => rfl
  | cons w ws ih =>
    rw [writeWords]
    cases k with
    | zero => rw [readWord_writeWords_of_lt _ (by omega), Nat.add_zero, readWord_writeWord_self hm]; rfl
    | succ k =>
      rw [show j + (k + 1) = j + 1 + k by omega, ih (wf_writeWord hm j w), readWord_writeWord_of_ne m (by omega)]
      rfl

theorem four_mul_memWords_le {p : Config.Params} (hp : p.wellFormed = true) : 4 * p.memWords ≤ 2 ^ 32 := by
  simp only [Config.Params.wellFormed, Config.Params.busAddressable, Bool.and_eq_true, decide_eq_true_eq] at hp
  obtain ⟨-, -, hbus⟩ := hp
  exact hbus

/-- On a bus of 32-bit addresses the address of a word is not reduced. -/
theorem ofNat_four_mul_toNat {p : Config.Params} (hp : p.wellFormed = true) {k : Nat} (hk : k < p.memWords) :
    (BitVec.ofNat 32 (4 * k)).toNat = 4 * k := by
  have := four_mul_memWords_le hp
  rw [BitVec.toNat_ofNat]
  omega

/-- Loading a list that fits from word index `j` on writes its words and nothing else. -/
theorem loadFromIn_of_fits {p : Config.Params} (hp : p.wellFormed = true) (ws : List Word) {j : Nat}
    (h : j + ws.length ≤ p.memWords) (s : State) :
    loadFromIn p (BitVec.ofNat 32 (4 * j)) ws s = .next { s with mem := writeWords s.mem j ws } := by
  induction ws generalizing j s with
  | nil => rfl
  | cons w ws ih =>
    rw [List.length_cons] at h
    have haddr := ofNat_four_mul_toNat hp (k := j) (by omega)
    have hnext : BitVec.ofNat 32 (4 * j) + 4 = BitVec.ofNat 32 (4 * (j + 1)) := (BitVec.ofNat_add (4 * j) 4).symm
    rw [loadFromIn, hostWriteIn_of_lt w s (by omega), haddr, Nat.mul_div_cancel_left j (by decide), hnext]
    exact ih (by omega) _

/-- Settles O26: the load writes the list over a bus of zeros, from word index 0 on. -/
theorem bootPlacesTheProgram : Obligations.BootPlacesTheProgram := by
  refine ⟨fun p ws hp hlen => ?_, fun _ => rfl⟩
  have hload := loadFromIn_of_fits hp ws (j := 0) (by omega) (State.resetWith (BitVec.ofNat 32 ws.length))
  refine ⟨_, hload, wf_writeWords rfl 0 ws, fun k hk => ?_, rfl⟩
  have haddr := ofNat_four_mul_toNat hp hk
  refine busRead_eq_some.mpr ⟨by omega, ?_⟩
  rw [haddr, Nat.mul_div_cancel_left k (by decide)]
  simpa [State.resetWith] using readWord_writeWords (m := []) rfl 0 k ws

end Sys2Proof.Proofs
end
